-- ==== Sys2Proof/Word.lean ====
section
/-! DEFINITION. The word of the TCA datapath: the active word length, and the 16-bit cell that holds a word of either
length. -/

namespace Sys2Proof

/-- A register or memory word. The block's words are `w` bits wide with `w` 10 or 16 (00_scope.md R5, R8), so 16 bits
hold a word of either length; at `w = 10` the upper six bits of every reachable word are 0 (10_state.md R34).
DESIGN CHOICE, safe: log 3. -/
abbrev Word := BitVec 16

/-- The word length `w` (00_scope.md R5): the two supported widths, and no other. -/
inductive WordLength where
  | w10
  | w16
deriving DecidableEq, Repr, Inhabited

namespace WordLength

/-- `w`, as a number of bits (R5). -/
def bits : WordLength → Nat
  | w10 => 10
  | w16 => 16

/-- `2 ^ w`, the number of values a word takes (R8, R9). -/
def modulus : WordLength → Nat
  | w10 => 1024
  | w16 => 65536

/-- `2 ^ (w - 1)`, the bound of the signed range (45_host_commands.md R163) and the weight of the sign bit
(41_ldi_add.md R123). -/
def half : WordLength → Nat
  | w10 => 512
  | w16 => 32768

end WordLength

end Sys2Proof
end

