-- ==== Sys2Proof/Config.lean ====
section
/-! DEFINITION. The parameters of the block (00_scope.md R7) and the values the spec leaves open. An `opaque` constant
has no body, so no proof can depend on its value. -/

namespace Sys2Proof

/-- The memory size in words, and the capacity of the instruction store in entries (00_scope.md R6, R7). -/
abbrev memorySize : Nat := 64

/-- The default step budget of `runUntilHalt` (00_scope.md R7, 45_host_commands.md R172). -/
def defaultMaxSteps : Nat := 256

/-- The display base (10_state.md R32): it has "no semantic effect on execution" (45_host_commands.md R171). -/
inductive DisplayBase where
  | bin
  | hex
  | dec
deriving DecidableEq, Repr, Inhabited

namespace Config

/-- The word length after power-on: an OPEN parameter, 10 or 16 (00_scope.md R5, 92_eei_decisions.md D5).
DESIGN CHOICE, safe: log 1. -/
opaque initialWordLength : WordLength

/-- The display base after power-on: an OPEN parameter (00_scope.md R7, 92_eei_decisions.md D25).
DESIGN CHOICE, safe: log 2. -/
opaque initialDisplayBase : DisplayBase

/-- The address-bus field of the `k`-th recorded micro-step where 40_step_cycle.md R112 leaves it unspecified.
Free value: log 6. -/
opaque freeAddressBus : Nat → Nat

/-- The data-bus field of the `k`-th recorded micro-step where R112 leaves it unspecified. Free value: log 6. -/
opaque freeDataBus : Nat → Nat

/-- The control tag of the `k`-th recorded micro-step, unspecified in every micro-step (R112); `none` is the cleared
tag NONE. Free value: log 6. -/
opaque freeControl : Nat → Option String

/-- The names of the active paths of the `k`-th recorded micro-step, unspecified in every micro-step (R112).
Free value: log 6. -/
opaque freePaths : Nat → List String

/-- The human-readable effect in the `k`-th micro-step's action: any value (40_step_cycle.md R113,
93_implementation_defined.md I3). It is part of the step's response, not of the state. Free value: log 13. -/
opaque freeActionText : Nat → String

end Config

end Sys2Proof
end

