-- ==== Sys2Proof/Syntax.lean ====
section
/-! DEFINITION. The instructions, their opcodes, and the instruction-store entry. -/

namespace Sys2Proof

/-- A general register, the only kind an instruction can name (10_state.md R21, R22). -/
inductive Reg where
  | A
  | B
deriving DecidableEq, Repr

/-- The seven instructions (00_scope.md R1, 30_encoding.md R92), as the parser yields them: operands are the integers
written in the source, not yet checked against any range (30_encoding.md R93; `Instr.wellFormed` is that check). -/
inductive Instr where
  /-- `LDI r, imm` (41_ldi_add.md R120). -/
  | ldi (r : Reg) (imm : Int)
  /-- `ADD d, s`, destination first (41_ldi_add.md R122). -/
  | add (d s : Reg)
  /-- `STORE r, a` (42_load_store.md R131). -/
  | store (r : Reg) (a : Int)
  /-- `LOAD r, a` (42_load_store.md R130). -/
  | load (r : Reg) (a : Int)
  /-- `JMP a` (43_control.md R141). -/
  | jmp (a : Int)
  /-- `JZ r, a` (43_control.md R142). -/
  | jz (r : Reg) (a : Int)
  /-- `HLT` (43_control.md R144). -/
  | hlt
deriving DecidableEq, Repr

/-- The seven opcodes, "an enumerated type with exhaustive matching" (40_step_cycle.md R104). -/
inductive Opcode where
  | ldi
  | add
  | store
  | load
  | jmp
  | jz
  | hlt
deriving DecidableEq, Repr

/-- An instruction-store entry, the record `(op, r, s, imm, addr)` the decoder reads, with the widths of
30_encoding.md R72: `imm` is a 16-bit two's-complement field, `addr` an unsigned word address. -/
structure Entry where
  op   : BitVec 4
  r    : BitVec 1
  s    : BitVec 1
  imm  : BitVec 16
  addr : BitVec 6
deriving DecidableEq, Repr

end Sys2Proof
end

