-- ==== Sys2Proof/WellFormed.lean ====
section
/-! DEFINITION. The range checks an instruction must pass before it enters the instruction store
(45_host_commands.md R163, 30_encoding.md R74). -/

namespace Sys2Proof

/-- The `LDI` immediate lies in the signed range of `w` bits (R163): `[-512, 511]` or `[-32768, 32767]`. -/
def immediateInRange (w : WordLength) (imm : Int) : Bool :=
  decide (-(w.half : Int) ≤ imm) && decide (imm ≤ (w.half : Int) - 1)

/-- A memory address or jump target lies in `[0, 64)`, at either width (R163, 20_memory.md R51). -/
def addressInRange (a : Int) : Bool :=
  decide (0 ≤ a) && decide (a.toNat < memorySize)

/-- The value of the operand that breaks R163 at word length `w`, if one does. No instruction has two operands that
can fail (60_exceptions.md R207). -/
def Instr.violation (w : WordLength) : Instr → Option Int
  | .ldi _ imm => if immediateInRange w imm then none else some imm
  | .add _ _ => none
  | .store _ a => if addressInRange a then none else some a
  | .load _ a => if addressInRange a then none else some a
  | .jmp a => if addressInRange a then none else some a
  | .jz _ a => if addressInRange a then none else some a
  | .hlt => none

/-- The instruction passes validation at word length `w` (R163). -/
def Instr.wellFormed (w : WordLength) (i : Instr) : Bool :=
  (i.violation w).isNone

end Sys2Proof
end

