-- ==== Sys2Proof/Decode.lean ====
section
/-! DEFINITION. The opcode tags, the decoder of instruction-store entries with its encoder, and the image words:
their encoder at both widths, tag recovery, and the reading of a 16-bit image word as an instruction. -/

namespace Sys2Proof

/-- The opcode tag table, the one place that fixes the numbers (30_encoding.md R71). UNVERIFIED, unsafe: the literals are
unaudited (93_implementation_defined.md I13; log 18). -/
def Opcode.tag : Opcode → BitVec 4
  | .ldi => 1
  | .add => 2
  | .store => 3
  | .load => 4
  | .jmp => 5
  | .jz => 6
  | .hlt => 15

/-- The opcode a tag names; `none` for tag 0 and tags 7 to 14 (30_encoding.md R85, R87). -/
def Opcode.ofTag (t : BitVec 4) : Option Opcode :=
  [Opcode.ldi, .add, .store, .load, .jmp, .jz, .hlt].find? (fun op => op.tag == t)

/-- The opcode of an instruction. -/
def Instr.opcode : Instr → Opcode
  | .ldi _ _ => .ldi
  | .add _ _ => .add
  | .store _ _ => .store
  | .load _ _ => .load
  | .jmp _ => .jmp
  | .jz _ _ => .jz
  | .hlt => .hlt

/-- The register selector bit: `A` = 0, `B` = 1 (10_state.md R21, 30_encoding.md R77). -/
def Reg.sel : Reg → BitVec 1
  | .A => 0
  | .B => 1

/-- The register a selector bit names (R77). -/
def Reg.ofSel (b : BitVec 1) : Reg :=
  if b = 0 then .A else .B

/-- Why something is no instruction. -/
inductive DecodeError where
  /-- The tag is none of the seven (30_encoding.md R74, R87). -/
  | badTag (tag : BitVec 4)
  /-- A field of the entry that the opcode does not use is not 0 (R72). DEDUCED, safe: log 5. -/
  | unusedField (op : Opcode)
  /-- A bit of the image word that R82 fixes at zero is set. -/
  | reservedBits (op : Opcode)
deriving DecidableEq, Repr

/-! ## Instruction-store entries: what the decoder reads -/

/-- The instruction `i` if the fields its opcode does not use are 0 (30_encoding.md R72), else a rejection by name. -/
def requireUnused (unused : Bool) (i : Instr) : Except DecodeError Instr :=
  if unused then .ok i else .error (.unusedField i.opcode)

/-- The decoder (30_encoding.md R72, R73; 40_step_cycle.md R104): an entry's instruction, or a rejection by name
(R74). Total on every entry. -/
def decodeEntry (e : Entry) : Except DecodeError Instr :=
  match Opcode.ofTag e.op with
  | none => .error (.badTag e.op)
  | some .ldi => requireUnused (e.s == 0 && e.addr == 0) (.ldi (.ofSel e.r) e.imm.toInt)
  | some .add => requireUnused (e.imm == 0 && e.addr == 0) (.add (.ofSel e.r) (.ofSel e.s))
  | some .store => requireUnused (e.s == 0 && e.imm == 0) (.store (.ofSel e.r) e.addr.toNat)
  | some .load => requireUnused (e.s == 0 && e.imm == 0) (.load (.ofSel e.r) e.addr.toNat)
  | some .jmp => requireUnused (e.r == 0 && e.s == 0 && e.imm == 0) (.jmp e.addr.toNat)
  | some .jz => requireUnused (e.s == 0 && e.imm == 0) (.jz (.ofSel e.r) e.addr.toNat)
  | some .hlt => requireUnused (e.r == 0 && e.s == 0 && e.imm == 0 && e.addr == 0) .hlt

/-- The entry of an instruction (30_encoding.md R72, R92). It is lossless on every instruction that validation admits
at either width; the fields take the low bits of an operand that validation would refuse (log 21). -/
def encodeEntry : Instr → Entry
  | .ldi r imm => ⟨Opcode.ldi.tag, r.sel, 0, BitVec.ofInt 16 imm, 0⟩
  | .add d s => ⟨Opcode.add.tag, d.sel, s.sel, 0, 0⟩
  | .store r a => ⟨Opcode.store.tag, r.sel, 0, 0, BitVec.ofInt 6 a⟩
  | .load r a => ⟨Opcode.load.tag, r.sel, 0, 0, BitVec.ofInt 6 a⟩
  | .jmp a => ⟨Opcode.jmp.tag, 0, 0, 0, BitVec.ofInt 6 a⟩
  | .jz r a => ⟨Opcode.jz.tag, r.sel, 0, 0, BitVec.ofInt 6 a⟩
  | .hlt => ⟨Opcode.hlt.tag, 0, 0, 0, 0⟩

/-! ## Image words: what memory holds -/

/-- A word whose low `k` bits are ones: `2 ^ k - 1`. -/
def lowMask (k : Nat) : Word :=
  (1 <<< k) - 1

/-- The payload of an entry before it is confined to its `w - 4` bits (30_encoding.md R81). -/
def payload (w : WordLength) (op : Opcode) (e : Entry) : Word :=
  match op with
  | .ldi => (e.r.setWidth 16 <<< (w.bits - 5)) ||| (e.imm &&& lowMask (w.bits - 5))
  | .add => (e.r.setWidth 16 <<< 1) ||| e.s.setWidth 16
  | .store => (e.r.setWidth 16 <<< 6) ||| e.addr.setWidth 16
  | .load => (e.r.setWidth 16 <<< 6) ||| e.addr.setWidth 16
  | .jmp => e.addr.setWidth 16
  | .jz => (e.r.setWidth 16 <<< 6) ||| e.addr.setWidth 16
  | .hlt => 0

/-- The image word of an entry at word length `w` (30_encoding.md R80): the tag in the top four bits, the payload
confined below it. It never fails (R86); an entry whose tag names no opcode, which the store never holds, gets the
word 0 (R71 "others"; log 12). -/
def encodeImage (w : WordLength) (e : Entry) : Word :=
  match Opcode.ofTag e.op with
  | some op => (op.tag.setWidth 16 <<< (w.bits - 4)) ||| (payload w op e &&& lowMask (w.bits - 4))
  | none => 0

/-- The image word of a well-formed instruction at word length `w` (R80). -/
def encode (w : WordLength) (i : Instr) : Word :=
  encodeImage w (encodeEntry i)

/-- Tag recovery from an image word, `word[w-1:w-4]` (30_encoding.md R85); `none` is NONE. -/
def decodeTag (w : WordLength) (word : Word) : Option Opcode :=
  Opcode.ofTag ((word >>> (w.bits - 4)).setWidth 4)

/-- The instruction `i` if the image bits that R82 fixes at zero are 0, else a rejection by name. -/
def requireZero (zero : Bool) (i : Instr) : Except DecodeError Instr :=
  if zero then .ok i else .error (.reservedBits i.opcode)

/-- A 16-bit image word read by the formats of 30_encoding.md R82. Execution never uses it (R70, R85): it names the
instruction a word of the opcode table stands for. The image keeps 11 bits of an `LDI` immediate (R84); of the
immediates that share the word this reads the one that lies in `[-1024, 1023]`. DESIGN CHOICE, unsafe: log 8. -/
def decodeImage (word : Word) : Except DecodeError Instr :=
  let sel6 : Reg := .ofSel (word.extractLsb' 6 1)
  let addr : Int := (word.extractLsb' 0 6).toNat
  match decodeTag .w16 word with
  | none => .error (.badTag (word.extractLsb' 12 4))
  | some .ldi => .ok (.ldi (.ofSel (word.extractLsb' 11 1)) (word.extractLsb' 0 11).toInt)
  | some .add =>
    requireZero (word.extractLsb' 2 10 == 0) (.add (.ofSel (word.extractLsb' 1 1)) (.ofSel (word.extractLsb' 0 1)))
  | some .store => requireZero (word.extractLsb' 7 5 == 0) (.store sel6 addr)
  | some .load => requireZero (word.extractLsb' 7 5 == 0) (.load sel6 addr)
  | some .jmp => requireZero (word.extractLsb' 6 6 == 0) (.jmp addr)
  | some .jz => requireZero (word.extractLsb' 7 5 == 0) (.jz sel6 addr)
  | some .hlt => requireZero (word.extractLsb' 0 12 == 0) .hlt

/-- The entry that stands for a 16-bit image word: its instruction's, or, for a word that names no instruction, an
entry with tag 0 (`NONE`), which the decoder rejects by name. -/
def entryOfImage (word : Word) : Entry :=
  match decodeImage word with
  | .ok i => encodeEntry i
  | .error _ => ⟨0, 0, 0, 0, 0⟩

/-- The instruction of an opcode-table word. Every row of the table is one 16-bit word (`nbits = 16`), with bit 0 the
least significant bit; a wider number is no word of this machine. -/
def decodeTableWord (nbits w : Nat) : Option Instr :=
  if nbits ≤ 16 ∧ w < 65536 then
    match decodeImage (BitVec.ofNat 16 w) with
    | .ok i => some i
    | .error _ => none
  else none

end Sys2Proof
end

