-- ==== Sys2Proof/Machine/State.lean ====
section
/-! DEFINITION. The state of the block as plain data, the reasons a step can stop, and the power-on state. -/

namespace Sys2Proof.Machine

/-- The reported state-machine label (00_scope.md R13, 40_step_cycle.md R111). No rule reads it. -/
inductive Phase where
  | idle
  | ready
  | fetch
  | execute
  | writeback
  | halt
deriving DecidableEq, Repr

/-- The bus trace `(AB, DB, control, activePaths)` of the micro-step just performed (10_state.md R37). The address and
data buses are numbers; a control tag is a name of the excluded renderer's vocabulary, with `none` for NONE; the active
paths are a set of such names, listed (91_not_in_source.md N9). DESIGN CHOICE, safe: log 6. -/
structure BusTrace where
  AB : Nat
  DB : Nat
  control : Option String
  activePaths : List String
deriving DecidableEq, Repr

/-- The cleared bus trace: `AB = 0`, `DB = 0`, `control = NONE`, no active path (R37). -/
def BusTrace.cleared : BusTrace := ⟨0, 0, none, []⟩

/-- The memory: pairs of a word address and the word there, addresses strictly rising, no word 0 listed; an unlisted
address reads 0, as memory is "created zero-filled" (20_memory.md R50, 10_state.md R38). The smallest unit the block
addresses is the word: there is no byte view (R57). Log 4. -/
abbrev Memory := List (Nat × Word)

/-- The complete state of the block (10_state.md R20). Registers hold `w`-bit words in 16-bit cells (log 3). -/
structure State where
  /-- General register `A` (R21). -/
  A : Word
  /-- General register `B` (R21). -/
  B : Word
  /-- The word moved in the last micro-step that moved one (R28). -/
  DR : Word
  /-- The address of the last memory access (R29). -/
  AR : Word
  /-- The program counter (R23). -/
  PC : Word
  /-- The stack pointer, which no instruction touches (R30). -/
  SP : Word
  /-- The opcode tag most recently fetched; 0 is NONE (R31). -/
  IR : BitVec 4
  /-- The sign flag (R25). -/
  SF : Bool
  /-- The flag the source names "overflow": the unsigned carry-out of the last `ADD` (R26, 90_conflicts.md C1). -/
  OF : Bool
  /-- The machine has halted (R32). -/
  halted : Bool
  /-- The number of executed steps, unbounded (R32, 60_exceptions.md R210). -/
  cycle : Nat
  /-- The bus trace (R37). -/
  bus : BusTrace
  /-- The reported phase (R32, 40_step_cycle.md R111). -/
  phase : Phase
  /-- The 64-word memory: image and data (20_memory.md R50). -/
  mem : Memory
  /-- The instruction store; entry `i` is the instruction at address `i` (R35). -/
  prog : List Entry
  /-- The active word length `w` (R32). -/
  wordLength : WordLength
  /-- The display base (R32). -/
  displayBase : DisplayBase
  /-- The model's own counter of recorded micro-steps, which indexes the free values of the bus trace (40_step_cycle.md
  R112). Log 6. -/
  draws : Nat
deriving DecidableEq, Repr

/-- The faults of a step. -/
inductive Fault where
  /-- `OutOfRangeAddress`: a memory access at an address outside `[0, 64)`, raised by the fetch, `LOAD` and `STORE`
  (20_memory.md R52, 60_exceptions.md R201). The step commits nothing (R203). Safe: no loaded program reaches it
  (R202). -/
  | outOfRangeAddress (addr : Int)
deriving DecidableEq, Repr

/-- The refusals of a step. -/
inductive Refusal where
  /-- `exec`: the instruction has no meaning in this model. No arm raises it. Safe. -/
  | notModelled (mnemonic : String)
  /-- The decoder: the entry at `PC` is none the instruction store can hold (30_encoding.md R74: "must refuse any entry
  that breaks this rule"). No command stores such an entry. Safe. -/
  | illegalEntry (why : DecodeError)
  /-- The decoder: the entry at `PC` carries an operand that validation refuses at the current word length (R74). No
  command leaves such an entry in the store. Safe. -/
  | unvalidatedOperand (value : Int)
deriving DecidableEq, Repr

/-- The power-on state (70_reset_and_hazards.md R230, 10_state.md R38): registers 0 but `SP = 63`, `IR = NONE`, flags,
`halted` and `cycle` 0, the bus trace cleared, phase `idle`, memory zero-filled, no program, and the word length and
display base at their OPEN parameters (logs 1, 2). -/
def State.reset : State where
  A := 0
  B := 0
  DR := 0
  AR := 0
  PC := 0
  SP := 63
  IR := 0
  SF := false
  OF := false
  halted := false
  cycle := 0
  bus := .cleared
  phase := .idle
  mem := []
  prog := []
  wordLength := Config.initialWordLength
  displayBase := Config.initialDisplayBase
  draws := 0

end Sys2Proof.Machine
end

