-- ==== Sys2Proof/Machine/Ops.lean ====
section
/-! DEFINITION. The operations every meaning is written over: masking, registers, memory, the bus trace, the PC and the
halt logic. A step fault saves nothing and goes nowhere (60_exceptions.md R204), so raising it is the `Except.error` of
a memory access; there is no exception entry and no return to model. -/

namespace Sys2Proof.Machine

/-- `mask_w(v)`, the value in `[0, 2^w)` congruent to `v` modulo `2^w` (00_scope.md R9). -/
def mask (w : WordLength) (v : Int) : Word :=
  BitVec.ofNat 16 (v % (w.modulus : Int)).toNat

/-- `signed_w(v)` (00_scope.md R11). -/
def signedValue (w : WordLength) (v : Word) : Int :=
  if v.getLsbD (w.bits - 1) then (v.toNat : Int) - w.modulus else v.toNat

/-! ## Registers -/

/-- The registers written `x[r]` (00_scope.md R10). -/
inductive RegName where
  | A
  | B
  | DR
  | AR
  | PC
  | SP
deriving DecidableEq, Repr

/-- The register an instruction operand names (10_state.md R21). -/
def regName : Reg → RegName
  | .A => .A
  | .B => .B

/-- `x[r]`, read a register (R10). -/
def State.reg (s : State) : RegName → Word
  | .A => s.A
  | .B => s.B
  | .DR => s.DR
  | .AR => s.AR
  | .PC => s.PC
  | .SP => s.SP

/-- Put a word in a register as it is. -/
def State.putReg (s : State) (r : RegName) (v : Word) : State :=
  match r with
  | .A => { s with A := v }
  | .B => { s with B := v }
  | .DR => { s with DR := v }
  | .AR => { s with AR := v }
  | .PC => { s with PC := v }
  | .SP => { s with SP := v }

/-- `x[r] <- v`, write a register with `mask_w(v)` (R10). -/
def State.setReg (s : State) (r : RegName) (v : Int) : State :=
  s.putReg r (mask s.wordLength v)

/-- `IR <- t`, write the opcode tag `t` (R10). -/
def State.setIR (s : State) (t : BitVec 4) : State :=
  { s with IR := t }

/-- A general register read through an operand (R10, R22). -/
def State.gpr (s : State) (r : Reg) : Word :=
  s.reg (regName r)

/-- Every register masked to word length `w` (10_state.md R33, 40_step_cycle.md R108). -/
def State.maskRegs (s : State) (w : WordLength) : State :=
  { s with
    A := mask w s.A.toNat
    B := mask w s.B.toNat
    DR := mask w s.DR.toNat
    AR := mask w s.AR.toNat
    PC := mask w s.PC.toNat
    SP := mask w s.SP.toNat }

/-! ## Memory -/

/-- The word at an address; an unlisted address reads 0 (10_state.md R38). -/
def Memory.read : Memory → Nat → Word
  | [], _ => 0
  | (b, u) :: rest, a => if b = a then u else Memory.read rest a

/-- The cell `(a, v)` in front of a memory, left out when the word is 0. -/
def Memory.cons (a : Nat) (v : Word) (m : Memory) : Memory :=
  if v = 0 then m else (a, v) :: m

/-- The memory with the word at `a` replaced by `v`, in canonical form. -/
def Memory.write (a : Nat) (v : Word) : Memory → Memory
  | [] => Memory.cons a v []
  | (b, u) :: rest =>
    if a < b then Memory.cons a v ((b, u) :: rest)
    else if a = b then Memory.cons a v rest
    else (b, u) :: Memory.write a v rest

/-- Every cell masked to word length `w`, in canonical form (10_state.md R33). -/
def Memory.maskCells (w : WordLength) : Memory → Memory
  | [] => []
  | (a, v) :: rest => Memory.cons a (mask w v.toNat) (Memory.maskCells w rest)

/-- The listed addresses are at least `lo` and strictly rising, and no listed word is 0. -/
def Memory.risingFrom : Nat → Memory → Bool
  | _, [] => true
  | lo, (a, v) :: rest => decide (lo ≤ a) && decide (v ≠ 0) && Memory.risingFrom (a + 1) rest

/-- The canonical form: addresses strictly rising and below 64, no listed word 0. -/
def Memory.wf (m : Memory) : Bool :=
  Memory.risingFrom 0 m && m.all (fun c => decide (c.1 < memorySize))

/-- Every listed word is a `w`-bit word (20_memory.md R51). -/
def Memory.fits (w : WordLength) (m : Memory) : Bool :=
  m.all (fun c => decide (c.2.toNat < w.modulus))

/-- Put a memory in place of the old one. -/
def State.setMem (s : State) (m : Memory) : State :=
  { s with mem := m }

/-- `MemRead(a, 1)` (20_memory.md R53). -/
def State.memRead (s : State) (a : Int) : Except Fault Word :=
  if 0 ≤ a ∧ a.toNat < memorySize then .ok (s.mem.read a.toNat) else .error (.outOfRangeAddress a)

/-- `MemWrite(a, 1, v)` (20_memory.md R54): the value is masked before it is stored. -/
def State.memWrite (s : State) (a : Int) (v : Int) : Except Fault State :=
  if 0 ≤ a ∧ a.toNat < memorySize then
    .ok (s.setMem (Memory.write a.toNat (mask s.wordLength v) s.mem))
  else .error (.outOfRangeAddress a)

/-- The image of the entries `es` written to the cells from `i` on (30_encoding.md R89, 45_host_commands.md R164). -/
def Memory.writeImage (w : WordLength) : Nat → List Entry → Memory → Memory
  | _, [], m => m
  | i, e :: es, m => Memory.writeImage w (i + 1) es (Memory.write i (encodeImage w e) m)

/-! ## Bus trace, phase, PC, halt -/

/-- The bus trace of a micro-step that accesses memory: `AB` and `DB` are the address and the word, the rest is free
(40_step_cycle.md R112). -/
def accessTrace (addr : Nat) (word : Word) (k : Nat) : BusTrace :=
  ⟨addr, word.toNat, Config.freeControl k, Config.freePaths k⟩

/-- The bus trace of a micro-step without a memory access: every field is free (R112). -/
def freeTrace (k : Nat) : BusTrace :=
  ⟨Config.freeAddressBus k, Config.freeDataBus k, Config.freeControl k, Config.freePaths k⟩

/-- Record a memory micro-step: its bus trace (R112) and the phase it passes through (R111). -/
def State.recordAccess (s : State) (p : Phase) (addr : Nat) (word : Word) : State :=
  { s with bus := accessTrace addr word s.draws, phase := p, draws := s.draws + 1 }

/-- Record a micro-step without a memory access. -/
def State.recordFree (s : State) (p : Phase) : State :=
  { s with bus := freeTrace s.draws, phase := p, draws := s.draws + 1 }

/-- `nextPC <- PC + 1; PC <- nextPC` (40_step_cycle.md R107). -/
def State.advance (s : State) : State :=
  s.setReg .PC ((s.PC.toNat : Int) + 1)

/-- The halt logic, shared by `HLT` and fall-through (43_control.md R145): `halted <- 1; phase <- halt`. -/
def State.halt (s : State) : State :=
  { s with halted := true, phase := .halt }

end Sys2Proof.Machine
end

