-- ==== Sys2Proof/Machine/Flags.lean ====
section
/-! DEFINITION. The ALU: the full-precision sum and the two flags `ADD` computes. -/

namespace Sys2Proof.Machine

/-- `x + y` in full precision, the operands read as unsigned integers (41_ldi_add.md R122). -/
def fullSum (x y : Word) : Nat :=
  x.toNat + y.toNat

/-- The masked sum `full mod 2^w` (R122). -/
def maskedSum (w : WordLength) (x y : Word) : Word :=
  mask w (fullSum x y)

/-- The sign bit of a `w`-bit value, bit `w - 1` (41_ldi_add.md R123). -/
def signBit (w : WordLength) (v : Word) : Bool :=
  v.getLsbD (w.bits - 1)

/-- `OF` of an addition: the masked sum differs from the full sum, which is the unsigned carry-out
(R122, R124; 90_conflicts.md C1; log 10). -/
def carryOut (w : WordLength) (x y : Word) : Bool :=
  (maskedSum w x y).toNat != fullSum x y

/-- `updateFlagsFromValue(value, overflowOccurred)` (R123). -/
def State.updateFlags (s : State) (value : Word) (overflow : Bool) : State :=
  { s with SF := signBit s.wordLength value, OF := overflow }

end Sys2Proof.Machine
end

