-- ==== Sys2Proof/Machine/Operands.lean ====
section
/-! DEFINITION. The operand forms: a register selector (`State.gpr`, 30_encoding.md R77), the signed immediate, and the
absolute address, the one addressing mode of the block. -/

namespace Sys2Proof.Machine

/-- The value of the `LDI` immediate: its `w`-bit two's-complement pattern at the word length in force when it executes
(30_encoding.md R75, 41_ldi_add.md R121). -/
def immediateValue (s : State) (imm : Int) : Word :=
  mask s.wordLength imm

/-- The effective address of an address operand: the operand itself, with no scaling and no base (30_encoding.md R76,
42_load_store.md R132). -/
def effectiveAddress (a : Int) : Int := a

end Sys2Proof.Machine
end

