-- ==== Sys2Proof/Machine/Arith.lean ====
section
/-! DEFINITION. Immediate load and arithmetic: `LDI`, `ADD` (spec/41_ldi_add.md). Each meaning is the execute
micro-step on the fetched state, with the next-PC write of 40_step_cycle.md R107. -/

namespace Sys2Proof.Machine

/-- Write a general register and mirror the value into `DR`: the register writes `LDI` and `ADD` share (10_state.md
R28). -/
def State.writeResult (s : State) (r : Reg) (v : Word) : State :=
  (s.setReg (regName r) v.toNat).setReg .DR v.toNat

/-- `LDI r, imm` (41_ldi_add.md R120). -/
def execLdi (r : Reg) (imm : Int) (s : State) : Host.Outcome State Fault Refusal :=
  .next ((s.writeResult r (immediateValue s imm)).recordFree .execute).advance

/-- `ADD d, s` (41_ldi_add.md R122): both operands are read before the destination is written. -/
def execAdd (d src : Reg) (s : State) : Host.Outcome State Fault Refusal :=
  let x := s.gpr d
  let y := s.gpr src
  let v := maskedSum s.wordLength x y
  .next (((s.writeResult d v).updateFlags v (carryOut s.wordLength x y)).recordFree .execute).advance

end Sys2Proof.Machine
end

