-- ==== Sys2Proof/Machine/Control.lean ====
section
/-! DEFINITION. Control transfer and halt: `JMP`, `JZ`, `HLT` (spec/43_control.md). `DR` and `AR` keep what the fetch
left (decision D7). -/

namespace Sys2Proof.Machine

/-- `JMP a` (43_control.md R141): `nextPC <- a`. -/
def execJmp (a : Int) (s : State) : Host.Outcome State Fault Refusal :=
  .next ((s.recordFree .execute).setReg .PC (effectiveAddress a))

/-- `JZ r, a` (43_control.md R142): the test is exact zero of the register, not a flag. -/
def execJz (r : Reg) (a : Int) (s : State) : Host.Outcome State Fault Refusal :=
  let s1 := s.recordFree .execute
  .next (if s.gpr r = 0 then s1.setReg .PC (effectiveAddress a) else s1.advance)

/-- `HLT` (43_control.md R144): `halted <- 1`, and `PC` is not advanced. -/
def execHlt (s : State) : Host.Outcome State Fault Refusal :=
  .next (s.recordFree .execute).halt

end Sys2Proof.Machine
end

