-- ==== Sys2Proof/Machine/LoadStore.lean ====
section
/-! DEFINITION. Memory instructions: `LOAD`, `STORE` (spec/42_load_store.md). A raise inside the step commits nothing
(60_exceptions.md R203): the fault carries no state. -/

namespace Sys2Proof.Machine

/-- `LOAD r, a` (42_load_store.md R130; `AR <- a` is decision D6). -/
def execLoad (r : Reg) (a : Int) (s : State) : Host.Outcome State Fault Refusal :=
  let addr := effectiveAddress a
  match s.memRead addr with
  | .error f => .fault f
  | .ok v =>
    let s1 := ((s.setReg .AR addr).setReg .DR v.toNat).setReg (regName r) v.toNat
    .next (s1.recordAccess .execute addr.toNat v).advance

/-- The execute micro-step of `STORE r, a`: `AR <- a; DR <- x[r]` (42_load_store.md R131). -/
def storeExecute (r : Reg) (a : Int) (s : State) : State :=
  let addr := effectiveAddress a
  ((s.setReg .AR addr).setReg .DR (s.gpr r).toNat).recordAccess .execute addr.toNat (s.gpr r)

/-- The writeback micro-step of `STORE r, a`: `MemWrite(a, 1, DR)` (42_load_store.md R131, 40_step_cycle.md R106). The
bus trace shows `x[r]` (R112), a general register that the execute micro-step left alone. -/
def storeWriteback (r : Reg) (a : Int) (s : State) : Except Fault State :=
  let addr := effectiveAddress a
  match s.memWrite addr s.DR.toNat with
  | .error f => .error f
  | .ok s1 => .ok (s1.recordAccess .writeback addr.toNat (s.gpr r))

/-- `STORE r, a` (42_load_store.md R131): the one instruction with a writeback micro-step. -/
def execStore (r : Reg) (a : Int) (s : State) : Host.Outcome State Fault Refusal :=
  match storeWriteback r a (storeExecute r a s) with
  | .error f => .fault f
  | .ok s1 => .next s1.advance

end Sys2Proof.Machine
end

