-- ==== Sys2Proof/Machine/Dispatch.lean ====
section
/-! DEFINITION. The dispatch over the seven opcodes, with no default arm (40_step_cycle.md R104, R105). -/

namespace Sys2Proof.Machine

def exec (i : Instr) (s : State) : Host.Outcome State Fault Refusal :=
  match i with
  | .ldi r imm => Sys2Proof.Machine.execLdi r imm s
  | .add d src => Sys2Proof.Machine.execAdd d src s
  | .store r a => Sys2Proof.Machine.execStore r a s
  | .load r a => Sys2Proof.Machine.execLoad r a s
  | .jmp a => Sys2Proof.Machine.execJmp a s
  | .jz r a => Sys2Proof.Machine.execJz r a s
  | .hlt => Sys2Proof.Machine.execHlt s

end Sys2Proof.Machine
end

