-- ==== Sys2Proof/Machine/Cycle.lean ====
section
/-! DEFINITION. The step cycle (spec/40_step_cycle.md): the checks, decode, fetch, execute and retirement of `step()`,
and the full result the host gets, of which `Machine/Step.lean` keeps the outcome. -/

namespace Sys2Proof.Machine

/-- The element an execute micro-step touches (40_step_cycle.md R113). -/
inductive Touched where
  | register (r : Reg)
  | cell (addr : Int)
  | pc
  | halted
deriving DecidableEq, Repr

/-- The "action" of an execute micro-step: what it touched, and a free human-readable text (R113). -/
structure Action where
  touched : Touched
  effect : String
deriving DecidableEq, Repr

/-- One entry of the micro-step record: which micro-step, its bus trace, and for execute the action (R113). -/
structure MicroStep where
  kind : Phase
  trace : BusTrace
  action : Option Action
deriving DecidableEq, Repr

/-- The result of `step()` (40_step_cycle.md R110; 60_exceptions.md R200, R201). -/
inductive StepReport where
  /-- `ok = true`: an executed step, with the state it leaves and the micro-step record. -/
  | ok (after : State) (record : List MicroStep)
  /-- `ok = false, reason = "halted"`: nothing changed (R101). -/
  | halted
  /-- `ok = false, reason = "no_instruction"`: the fall-through halt (R102). -/
  | noInstruction (after : State)
  /-- A step fault: nothing committed (60_exceptions.md R203). -/
  | fault (f : Fault)
  /-- The entry at `PC` is none the instruction store can hold (30_encoding.md R74). -/
  | refused (r : Refusal)
deriving DecidableEq, Repr

/-- The fetch micro-step (R103): `DR <- MemRead(PC, 1); AR <- PC; IR <- e.op`, with the fetch bus trace. -/
def fetch (e : Entry) (s : State) : Except Fault State :=
  (s.memRead s.PC.toNat).map fun v =>
    (((s.setReg .DR v.toNat).setReg .AR s.PC.toNat).setIR e.op).recordAccess .fetch s.PC.toNat v

/-- The decode of the entry at `PC` (R104), which refuses an entry that breaks 30_encoding.md R74 (log 22). -/
def decodeValid (w : WordLength) (e : Entry) : Except Refusal Instr :=
  match decodeEntry e with
  | .error why => .error (.illegalEntry why)
  | .ok i =>
    match i.violation w with
    | some v => .error (.unvalidatedOperand v)
    | none => .ok i

/-- The end of an executed step: every register re-masked (R108, log 17), `cycle <- cycle + 1` (R109, log 16). -/
def retire (s : State) : State :=
  { s.maskRegs s.wordLength with cycle := s.cycle + 1 }

/-- The element the execute micro-step of an instruction touches (R113). -/
def touched : Instr → Touched
  | .ldi r _ => .register r
  | .add d _ => .register d
  | .load r _ => .register r
  | .store _ a => .cell a
  | .jmp _ => .pc
  | .jz _ _ => .pc
  | .hlt => .halted

/-- The bus trace of an instruction's execute micro-step, given the states before and after the instruction; only
`STORE` performs a further micro-step after it (R106, R112). -/
def executeTrace (i : Instr) (before after : State) : BusTrace :=
  match i with
  | .store r a => (storeExecute r a before).bus
  | .ldi _ _ => after.bus
  | .add _ _ => after.bus
  | .load _ _ => after.bus
  | .jmp _ => after.bus
  | .jz _ _ => after.bus
  | .hlt => after.bus

/-- The micro-steps an instruction performs after the fetch: execute, and for `STORE` writeback (R105, R106, R113). -/
def executeSteps (i : Instr) (before after : State) : List MicroStep :=
  let execute : MicroStep :=
    ⟨.execute, executeTrace i before after, some ⟨touched i, Config.freeActionText before.draws⟩⟩
  match i with
  | .store _ _ => [execute, ⟨.writeback, after.bus, none⟩]
  | .ldi _ _ => [execute]
  | .add _ _ => [execute]
  | .load _ _ => [execute]
  | .jmp _ => [execute]
  | .jz _ _ => [execute]
  | .hlt => [execute]

/-- Run the decoded instruction `i` of entry `e`: fetch, execute, retire (R100). -/
def runEntry (e : Entry) (i : Instr) (s : State) : StepReport :=
  match fetch e s with
  | .error f => .fault f
  | .ok s1 =>
    match exec i s1 with
    | .next s2 => .ok (retire s2) (⟨.fetch, s1.bus, none⟩ :: executeSteps i s1 s2)
    | .fault f => .fault f
    | .refused r => .refused r

/-- `step()` in the order of R100 (60_exceptions.md R207): the halted check (R101), the fall-through check (R102),
decode, and the run of at most one instruction. -/
def stepReport (s : State) : StepReport :=
  if s.halted then .halted
  else
    match s.prog[s.PC.toNat]? with
    | none => .noInstruction s.halt
    | some e =>
      match decodeValid s.wordLength e with
      | .error r => .refused r
      | .ok i => runEntry e i s

/-- The state a step leaves, or why it stops. The two non-fatal results are next states (60_exceptions.md R200):
`halted` changes nothing, `no_instruction` halts. Log 9. -/
def StepReport.outcome (s : State) : StepReport → Host.Outcome State Fault Refusal
  | .ok after _ => .next after
  | .halted => .next s
  | .noInstruction after => .next after
  | .fault f => .fault f
  | .refused r => .refused r

/-- The code of a step's result (60_exceptions.md R201); a refusal is the model's and has none. -/
def StepReport.code : StepReport → Option Nat
  | .ok _ _ => some 0
  | .halted => some 1
  | .noInstruction _ => some 2
  | .fault (.outOfRangeAddress _) => some 3
  | .refused _ => none

/-- The instruction store with entry `e` at address `pc`; a store that ends before `pc` is filled up to it with `HLT`
entries, since a program has no gaps (10_state.md R35). -/
def placeEntry (pc : Nat) (e : Entry) (prog : List Entry) : List Entry :=
  prog.take pc ++ List.replicate (pc - prog.length) (encodeEntry .hlt) ++ e :: prog.drop (pc + 1)

/-- The state whose next step runs the instruction of the 16-bit image word `word`: the entry it stands for in the
instruction store at `PC`, the word in the memory cell at `PC`, word length 16, and not halted. A `PC` past the last
address, where nothing can be fetched, becomes the entry point 0. It stands for the host's load of a program from
outside (70_reset_and_hazards.md R234; log 7). -/
def State.withImageWord (s : State) (word : Word) : State :=
  let pc : Word := if s.PC.toNat < memorySize then s.PC else 0
  { s with
    PC := pc
    halted := false
    wordLength := .w16
    prog := placeEntry pc.toNat (entryOfImage word) s.prog
    mem := Memory.write pc.toNat word s.mem }

end Sys2Proof.Machine
end

