-- ==== Sys2Proof/Machine/Step.lean ====
section
/-! DEFINITION. One step of the machine, and the placing of an instruction where it fetches. -/

namespace Sys2Proof.Machine

/-- One `step()` command (40_step_cycle.md R100): the outcome of its report. -/
def step (s : State) : Host.Outcome State Fault Refusal :=
  (stepReport s).outcome s

/-- The state whose next step fetches and runs the instruction of the opcode-table word `w`. Every row is one 16-bit
word, so `nbits` adds nothing. Log 7. -/
def State.withFetchWord (s : State) (_nbits w : Nat) : State :=
  s.withImageWord (BitVec.ofNat 16 w)

end Sys2Proof.Machine
end

