-- ==== Sys2Proof/Machine/Assembler.lean ====
section
/-! DEFINITION. The assembler: source text to instructions (30_encoding.md R90 to R95). It checks no range (R93). -/

namespace Sys2Proof.Machine

/-- Why a source is refused. The message text is not normative (30_encoding.md R94, 93_implementation_defined.md I11);
these are the grounds R94 names (log 19). -/
inductive ParseReason where
  /-- The opcode is outside the seven. -/
  | unknownOpcode
  /-- The operands fail the opcode's grammar; operands after `HLT` among them. -/
  | badOperands
  /-- "no instructions found". -/
  | noInstructions
deriving DecidableEq, Repr

/-- `ParseError(line, reason)`: the 1-based source line, none for "no instructions found" (R94, decision D26). -/
structure ParseError where
  line : Option Nat
  reason : ParseReason
deriving DecidableEq, Repr

/-- A whitespace character within a line. The spec does not list them. DESIGN CHOICE, unsafe: log 11. -/
def isBlank (c : Char) : Bool :=
  c = ' ' || c = '\t' || c = '\r' || c = '\x0b' || c = '\x0c'

/-- The text cut at every `sep`: one piece more than there are separators. -/
def splitAtChar (sep : Char) : List Char → List (List Char)
  | [] => [[]]
  | c :: cs =>
    match splitAtChar sep cs with
    | [] => [[c]]
    | p :: ps => if c = sep then [] :: p :: ps else (c :: p) :: ps

/-- The text without leading and trailing whitespace (R90). -/
def trim (cs : List Char) : List Char :=
  ((cs.dropWhile isBlank).reverse.dropWhile isBlank).reverse

/-- The text before the first `;`, `#` or `//` (R90). -/
def stripComment : List Char → List Char
  | [] => []
  | c :: cs =>
    if c = ';' || c = '#' || (c = '/' && cs.head? = some '/') then [] else c :: stripComment cs

/-- A letter in upper case: opcodes and register names are matched in either case (R91). -/
def upperChar (c : Char) : Char :=
  if 'a' ≤ c ∧ c ≤ 'z' then Char.ofNat (c.toNat - 32) else c

/-- The value of a decimal digit. -/
def digitValue (c : Char) : Option Nat :=
  if '0' ≤ c ∧ c ≤ '9' then some (c.toNat - 48) else none

/-- The number written by one or more decimal digits, `acc` the value of the digits before. -/
def parseDigits (acc : Nat) : List Char → Option Nat
  | [] => none
  | [c] => (digitValue c).map (fun d => acc * 10 + d)
  | c :: cs => (digitValue c).bind (fun d => parseDigits (acc * 10 + d) cs)

/-- `int`: an optional sign followed by decimal digits (R91). -/
def parseInt (cs : List Char) : Option Int :=
  match cs with
  | '-' :: ds => (parseDigits 0 ds).map (fun n => -(n : Int))
  | '+' :: ds => (parseDigits 0 ds).map (fun n => (n : Int))
  | ds => (parseDigits 0 ds).map (fun n => (n : Int))

/-- `reg`: `A` or `B` in either case (R91, R92). -/
def parseReg (cs : List Char) : Option Reg :=
  if cs.map upperChar = ['A'] then some .A
  else if cs.map upperChar = ['B'] then some .B
  else none

/-- `int` or `[ int ]`, the address operand of `LOAD` and `STORE` (R92). -/
def parseAddress (cs : List Char) : Option Int :=
  match cs with
  | '[' :: rest =>
    match rest.reverse with
    | ']' :: inner => parseInt (trim inner.reverse)
    | _ => none
  | bare => parseInt bare

/-- The operand grammar of R92 over the comma-separated fields of the operand text, each trimmed. -/
def parseOperands (opcode : List Char) (fields : List (List Char)) : Except ParseReason Instr :=
  let need (x : Option Instr) : Except ParseReason Instr :=
    match x with
    | some i => .ok i
    | none => .error .badOperands
  if opcode = ['L', 'D', 'I'] then
    match fields with
    | [r, v] => need ((parseReg r).bind fun r => (parseInt v).map fun v => .ldi r v)
    | _ => .error .badOperands
  else if opcode = ['A', 'D', 'D'] then
    match fields with
    | [d, s] => need ((parseReg d).bind fun d => (parseReg s).map fun s => .add d s)
    | _ => .error .badOperands
  else if opcode = ['L', 'O', 'A', 'D'] then
    match fields with
    | [r, a] => need ((parseReg r).bind fun r => (parseAddress a).map fun a => .load r a)
    | _ => .error .badOperands
  else if opcode = ['S', 'T', 'O', 'R', 'E'] then
    match fields with
    | [r, a] => need ((parseReg r).bind fun r => (parseAddress a).map fun a => .store r a)
    | _ => .error .badOperands
  else if opcode = ['J', 'M', 'P'] then
    match fields with
    | [a] => need ((parseInt a).map fun a => .jmp a)
    | _ => .error .badOperands
  else if opcode = ['J', 'Z'] then
    match fields with
    | [r, a] => need ((parseReg r).bind fun r => (parseInt a).map fun a => .jz r a)
    | _ => .error .badOperands
  else if opcode = ['H', 'L', 'T'] then
    match fields with
    | [[]] => .ok .hlt
    | _ => .error .badOperands
  else .error .unknownOpcode

/-- One line that is not blank: the opcode up to the first whitespace, then the operand text (R91, decision D15). -/
def parseLine (line : List Char) : Except ParseReason Instr :=
  let opcode := line.takeWhile (fun c => !isBlank c)
  let operands := line.dropWhile (fun c => !isBlank c)
  parseOperands (opcode.map upperChar) ((splitAtChar ',' operands).map trim)

/-- The instructions of the lines from source line `n` on, up to the first invalid line (R90, R94). -/
def parseLines : Nat → List (List Char) → Except ParseError (List Instr)
  | _, [] => .ok []
  | n, l :: ls =>
    match trim (stripComment l) with
    | [] => parseLines (n + 1) ls
    | c :: cs =>
      match parseLine (c :: cs) with
      | .error why => .error ⟨some n, why⟩
      | .ok i =>
        match parseLines (n + 1) ls with
        | .error e => .error e
        | .ok is => .ok (i :: is)

/-- `parse(text)` (R90 to R94): the program, or the first invalid line. -/
def parse (text : String) : Except ParseError (List Instr) :=
  match parseLines 1 (splitAtChar '\n' text.toList) with
  | .error e => .error e
  | .ok [] => .error ⟨none, .noInstructions⟩
  | .ok (i :: is) => .ok (i :: is)

end Sys2Proof.Machine
end

