-- ==== Sys2Proof/Machine/Commands.lean ====
section
/-! DEFINITION. The host commands (spec/45_host_commands.md): program load with validation, step, reset, width change,
display base, and run to halt. Each is a function from a state and its arguments to a reply that holds the state after
it; a command that fails answers with the state it was given (60_exceptions.md R216), save `runUntilHalt`. -/

namespace Sys2Proof.Machine

/-! ## Replies -/

/-- A configuration value the host asked for and the block does not support (60_exceptions.md R201). -/
inductive Setting where
  | wordLength (bits : Int)
  | displayBase (base : String)
deriving DecidableEq, Repr

/-- The host-command errors (60_exceptions.md R201), with the information each records. -/
inductive HostError where
  /-- A malformed source line (30_encoding.md R94). -/
  | parseError (e : ParseError)
  /-- More than 64 instructions (45_host_commands.md R162). -/
  | programTooLarge (count : Nat)
  /-- An operand out of range: the instruction index and the value (R163). -/
  | rangeError (index : Nat) (value : Int)
  /-- An unsupported word length or display base (R170, R171). -/
  | unsupportedConfiguration (setting : Setting)
  /-- The step budget ran out (R172, R173). -/
  | nonTermination (maxSteps : Nat)
  /-- A step fault, surfaced as a fatal execution error (R173, 60_exceptions.md R203). -/
  | fatalExecution (f : Fault)
  /-- The model's own: a step met an entry no command stores (30_encoding.md R74). -/
  | refusedExecution (r : Refusal)
deriving DecidableEq, Repr

/-- The code of an error (60_exceptions.md R201); the model's own refusal has none. -/
def HostError.code : HostError → Option Nat
  | .parseError _ => some 10
  | .programTooLarge _ => some 11
  | .rangeError _ _ => some 12
  | .unsupportedConfiguration _ => some 13
  | .nonTermination _ => some 14
  | .fatalExecution (.outOfRangeAddress _) => some 3
  | .refusedExecution _ => none

/-- The host snapshot (10_state.md R40): registers, flags, bus trace, `halted`, `cycle`, the program listing, the full
memory contents, the active configuration and the phase. -/
structure Snapshot where
  A : Word
  B : Word
  DR : Word
  AR : Word
  PC : Word
  SP : Word
  IR : BitVec 4
  SF : Bool
  OF : Bool
  bus : BusTrace
  halted : Bool
  cycle : Nat
  listing : List Entry
  memory : List Word
  wordLength : WordLength
  displayBase : DisplayBase
  phase : Phase
deriving DecidableEq, Repr

/-- The snapshot of a state (R40), a copy: memory word by word from address 0 (log 25). -/
def State.snapshot (s : State) : Snapshot where
  A := s.A
  B := s.B
  DR := s.DR
  AR := s.AR
  PC := s.PC
  SP := s.SP
  IR := s.IR
  SF := s.SF
  OF := s.OF
  bus := s.bus
  halted := s.halted
  cycle := s.cycle
  listing := s.prog
  memory := (List.range memorySize).map s.mem.read
  wordLength := s.wordLength
  displayBase := s.displayBase
  phase := s.phase

/-- What a command returns to the host. -/
inductive Response where
  /-- `loadProgram`: the instruction count. -/
  | count (n : Nat)
  /-- `step()`: its report; an executed step also has the snapshot (40_step_cycle.md R110). -/
  | report (r : StepReport)
  /-- `reset`, `setWordLength`, `setDisplayBase`: done. -/
  | done
  /-- `runUntilHalt`: the snapshot. -/
  | snapshot (s : Snapshot)
  /-- The command failed. -/
  | error (e : HostError)
deriving DecidableEq, Repr

/-- The notifications a command sends, channel by channel, each oldest first: the order between the two channels is
unspecified (45_host_commands.md R174; log 14). -/
structure Notices where
  stateChange : List Snapshot
  step : List (Snapshot × List MicroStep)
deriving DecidableEq, Repr

/-- No notification. -/
def Notices.none : Notices := ⟨[], []⟩

/-- The notifications of `m` after those of `n`. -/
def Notices.append (n m : Notices) : Notices :=
  ⟨n.stateChange ++ m.stateChange, n.step ++ m.step⟩

/-- The state after a command, its response, and its notifications. -/
structure Reply where
  state : State
  response : Response
  notices : Notices
deriving DecidableEq, Repr

/-- A command that changed the state: it notifies the state-change channel (R174). -/
def Reply.changed (s : State) (r : Response) : Reply :=
  ⟨s, r, ⟨[s.snapshot], []⟩⟩

/-- A failed command: the state is unchanged and nothing is notified (60_exceptions.md R216, decision D22). -/
def Reply.failed (s : State) (e : HostError) : Reply :=
  ⟨s, .error e, .none⟩

/-! ## Program load -/

/-- The violation of the first instruction, from index `i` on, that breaks its range (45_host_commands.md R163). -/
def validateFrom (w : WordLength) : Nat → List Instr → Except HostError Unit
  | _, [] => .ok ()
  | i, x :: xs =>
    match x.violation w with
    | some v => .error (.rangeError i v)
    | none => validateFrom w (i + 1) xs

/-- `validate(P, bits)` (R163). -/
def validate (p : List Instr) (w : WordLength) : Except HostError Unit :=
  validateFrom w 0 p

/-- The value of an entry's operand that breaks R163 at word length `w`, if one does. -/
def entryViolation (w : WordLength) (e : Entry) : Option Int :=
  match decodeEntry e with
  | .ok i => i.violation w
  | .error _ => none

/-- `validate` over the stored program, from index `i` on (R163, R168). -/
def validateStore (w : WordLength) : Nat → List Entry → Except HostError Unit
  | _, [] => .ok ()
  | i, e :: es =>
    match entryViolation w e with
    | some v => .error (.rangeError i v)
    | none => validateStore w (i + 1) es

/-- The CPU reset (10_state.md R38): registers 0 but `SP = 63`, `IR = NONE`, flags, `halted` and `cycle` 0, bus trace
cleared. -/
def State.cpuReset (s : State) : State :=
  { s with
    A := 0, B := 0, DR := 0, AR := 0, PC := 0, SP := 63, IR := 0
    SF := false, OF := false, halted := false, cycle := 0, bus := .cleared }

/-- Memory zero-filled, then the image of the stored program written (45_host_commands.md R164, R167). -/
def State.freshImage (s : State) : State :=
  s.setMem (Memory.writeImage s.wordLength 0 s.prog [])

/-- `commit(P)` (R164). -/
def State.commit (s : State) (p : List Instr) : State :=
  { ({ s.cpuReset with prog := p.map encodeEntry } : State).freshImage with phase := .ready }

/-- The part of `loadProgram` after the parse (R161): size, validation, commit. -/
def loadInstrs (p : List Instr) (s : State) : Reply :=
  if p.length > memorySize then .failed s (.programTooLarge p.length)
  else
    match validate p s.wordLength with
    | .error e => .failed s e
    | .ok () => .changed (s.commit p) (.count p.length)

/-- `loadProgram(text)` (R161). -/
def loadProgram (text : String) (s : State) : Reply :=
  match parse text with
  | .error e => .failed s (.parseError e)
  | .ok p => loadInstrs p s

/-! ## Step, reset, configuration -/

/-- `step()` as a command (45_host_commands.md R166). -/
def stepCommand (s : State) : Reply :=
  match stepReport s with
  | .ok after record => ⟨after, .report (.ok after record), ⟨[after.snapshot], [(after.snapshot, record)]⟩⟩
  | .halted => ⟨s, .report .halted, .none⟩
  | .noInstruction after => .changed after (.report (.noInstruction after))
  | .fault f => .failed s (.fatalExecution f)
  | .refused r => .failed s (.refusedExecution r)

/-- The state after `reset()` (45_host_commands.md R167): program, word length and display base are kept. -/
def State.hostReset (s : State) : State :=
  { s.cpuReset.freshImage with phase := .idle }

/-- `reset()` (R167). -/
def resetCommand (s : State) : Reply :=
  .changed s.hostReset .done

/-- The word length of a number of bits, if it is supported (R170; log 20). -/
def wordLengthOf (bits : Int) : Option WordLength :=
  if bits = 10 then some .w10 else if bits = 16 then some .w16 else none

/-- `commit-width(bits)` (R169): registers and cells re-masked in place, then the image rewritten. -/
def State.commitWidth (s : State) (w : WordLength) : State :=
  let s1 := s.maskRegs w
  { s1 with wordLength := w, mem := Memory.writeImage w 0 s.prog (s.mem.maskCells w) }

/-- `setWordLength(bits)` (R168). -/
def setWordLength (bits : Int) (s : State) : Reply :=
  match wordLengthOf bits with
  | none => .failed s (.unsupportedConfiguration (.wordLength bits))
  | some w =>
    match validateStore w 0 s.prog with
    | .error e => .failed s e
    | .ok () => .changed (s.commitWidth w) .done

/-- The display base of a name, if it is supported (R171; log 20). -/
def displayBaseOf (base : String) : Option DisplayBase :=
  if base = "bin" then some .bin
  else if base = "hex" then some .hex
  else if base = "dec" then some .dec
  else none

/-- `setDisplayBase(base)` (R171). -/
def setDisplayBase (base : String) (s : State) : Reply :=
  match displayBaseOf base with
  | none => .failed s (.unsupportedConfiguration (.displayBase base))
  | some b => .changed { s with displayBase := b } .done

/-! ## Run to halt -/

/-- The loop of `runUntilHalt` with `fuel` steps left of `maxSteps` (45_host_commands.md R172): the steps already
performed stay committed whatever ends it (R173; log 15). When the run ends in an error, the notifications of those steps
(R166) are kept, though R174 says that a failed command notifies nothing. DESIGN CHOICE, unsafe: log 27. -/
def runLoop (maxSteps : Nat) : Nat → State → Reply
  | 0, s => ⟨s, if s.halted then .snapshot s.snapshot else .error (.nonTermination maxSteps), .none⟩
  | fuel + 1, s =>
    if s.halted then ⟨s, .snapshot s.snapshot, .none⟩
    else
      let first := stepCommand s
      match first.response with
      | .report _ =>
        let rest := runLoop maxSteps fuel first.state
        { rest with notices := first.notices.append rest.notices }
      | _ => first

/-- `runUntilHalt(maxSteps)` (R172). -/
def runUntilHalt (maxSteps : Nat) (s : State) : Reply :=
  runLoop maxSteps maxSteps s

/-! ## All commands -/

/-- The host commands that act on the block (45_host_commands.md R160). -/
inductive Command where
  | loadProgram (text : String)
  | step
  | reset
  | setWordLength (bits : Int)
  | setDisplayBase (base : String)
  | runUntilHalt (maxSteps : Nat := defaultMaxSteps)
deriving DecidableEq, Repr

/-- One host command, run to completion (00_scope.md R16). -/
def command (c : Command) (s : State) : Reply :=
  match c with
  | .loadProgram text => Sys2Proof.Machine.loadProgram text s
  | .step => stepCommand s
  | .reset => resetCommand s
  | .setWordLength bits => Sys2Proof.Machine.setWordLength bits s
  | .setDisplayBase base => Sys2Proof.Machine.setDisplayBase base s
  | .runUntilHalt maxSteps => Sys2Proof.Machine.runUntilHalt maxSteps s

end Sys2Proof.Machine
end

