-- ==== Sys2Proof/Safety.lean ====
section
/-! DEFINITION. What a sound state is, in the terms the statements use: the invariant of the reachable states
(10_state.md R34). -/

namespace Sys2Proof.Machine

/-- A `w`-bit word: its value is in `[0, 2^w)` (10_state.md R21). -/
def isWord (w : WordLength) (v : Word) : Bool :=
  decide (v.toNat < w.modulus)

/-- An entry the instruction store can hold at word length `w` (30_encoding.md R74): it decodes, and its operands pass
validation. -/
def Entry.valid (w : WordLength) (e : Entry) : Bool :=
  match decodeValid w e with
  | .ok _ => true
  | .error _ => false

/-- The invariant of 10_state.md R34: every register and every cell is a `w`-bit word, the memory is in canonical form
within 64 cells, `n ≤ 64`, `PC ≤ 64`, every entry passes validation for the current `w`; with it `SP = 63` (R30). That
`SF`, `OF` and `halted` are bits is their type. -/
def State.Inv (s : State) : Bool :=
  isWord s.wordLength s.A && isWord s.wordLength s.B && isWord s.wordLength s.DR && isWord s.wordLength s.AR &&
  decide (s.PC.toNat ≤ memorySize) && decide (s.SP = 63) &&
  s.mem.wf && s.mem.fits s.wordLength &&
  decide (s.prog.length ≤ memorySize) && s.prog.all (Entry.valid s.wordLength)

/-- A step outcome that is a next state: neither a fault nor a refusal. -/
def completes : Host.Outcome State Fault Refusal → Bool
  | .next _ => true
  | .fault _ => false
  | .refused _ => false

/-- What a step makes of a meaning's outcome: a next state is retired (40_step_cycle.md R105, R108, R109), a fault or a
refusal stops the step. -/
def retireOutcome : Host.Outcome State Fault Refusal → Host.Outcome State Fault Refusal
  | .next s => .next (retire s)
  | .fault f => .fault f
  | .refused r => .refused r

/-! ## Frames -/

/-- The flags are as before (10_state.md R25, R26). -/
def sameFlags (s t : State) : Prop :=
  t.SF = s.SF ∧ t.OF = s.OF

/-- Every cell of memory reads as before. -/
def sameMemory (s t : State) : Prop :=
  ∀ b, t.mem.read b = s.mem.read b

/-- What no meaning writes: `SP`, `IR`, `cycle`, the program, the word length, the display base (10_state.md R20). -/
def sameFixed (s t : State) : Prop :=
  t.SP = s.SP ∧ t.IR = s.IR ∧ t.cycle = s.cycle ∧ t.prog = s.prog ∧ t.wordLength = s.wordLength ∧
    t.displayBase = s.displayBase

/-! ## The step tables of the spec, apart from the meanings -/

/-- The machine is at the instruction `i`: running, with an entry at `PC` inside the memory that decodes to `i` and
passes validation at the current word length (40_step_cycle.md R104, 30_encoding.md R74). -/
def runs (s : State) (i : Instr) : Prop :=
  s.halted = false ∧ s.PC.toNat < memorySize ∧
    ∃ e, s.prog[s.PC.toNat]? = some e ∧ decodeEntry e = .ok i ∧ i.wellFormed s.wordLength = true

/-- The next-PC table of 40_step_cycle.md R107. -/
def nextPC (i : Instr) (s : State) : Int :=
  match i with
  | .ldi _ _ => s.PC.toNat + 1
  | .add _ _ => s.PC.toNat + 1
  | .load _ _ => s.PC.toNat + 1
  | .store _ _ => s.PC.toNat + 1
  | .jmp a => a
  | .jz r a => if s.gpr r = 0 then a else s.PC.toNat + 1
  | .hlt => s.PC.toNat

/-- The phase an executed step reports (40_step_cycle.md R111). -/
def reportedPhase : Instr → Phase
  | .ldi _ _ => .execute
  | .add _ _ => .execute
  | .load _ _ => .execute
  | .jmp _ => .execute
  | .jz _ _ => .execute
  | .store _ _ => .writeback
  | .hlt => .halt

end Sys2Proof.Machine
end

