-- ==== Sys2Proof/Certificates/Slice0/Obligations.lean ====
section
/-! DEFINITION. The statements for the provers. Each docstring names the rules of spec/ it formalises; a statement that
rests on a choice of the model names its log entry. -/

open Sys2Proof Sys2Proof.Machine

/-! ## Words -/

/-- `mask_w(v)` is `v AND (2^w - 1)` on the two's-complement pattern of `v`, the unique value in `[0, 2^w)` congruent to
`v` modulo `2^w`, for any integer `v`, and masking it again changes nothing (00_scope.md R9). -/
def Obligations.MaskIsTheUniqueResidueInRange : Prop :=
  ∀ (w : WordLength) (v : Int),
    mask w v = BitVec.ofInt 16 v &&& BitVec.ofNat 16 (2 ^ w.bits - 1) ∧
    (mask w v).toNat < 2 ^ w.bits ∧
    ((mask w v).toNat : Int) % (2 ^ w.bits : Nat) = v % (2 ^ w.bits : Nat) ∧
    (∀ n : Nat, n < 2 ^ w.bits → (n : Int) % (2 ^ w.bits : Nat) = v % (2 ^ w.bits : Nat) → n = (mask w v).toNat) ∧
    mask w (mask w v).toNat = mask w v

/-! ## Encoding -/

/-- DECODE AND ENCODE AGREE: every instruction that validation admits at either word length, with every operand, is
the instruction its entry decodes to (30_encoding.md R72). -/
def Obligations.DecodeOfEncodedEntryIsTheInstruction : Prop :=
  ∀ (w : WordLength) (i : Instr), i.wellFormed w = true → decodeEntry (encodeEntry i) = .ok i

/-- An entry that decodes is the entry of its instruction, and that instruction is admitted at 16 bits: no bit of an
entry is dropped (30_encoding.md R72). That unused fields must be 0 to decode is log 5. -/
def Obligations.DecodedEntryEncodesBack : Prop :=
  ∀ (e : Entry) (i : Instr), decodeEntry e = .ok i → encodeEntry i = e ∧ i.wellFormed .w16 = true

/-- Tag recovery is exact at both widths, returns the opcodes of R71 for tags 1 to 6 and 15, and NONE exactly for tag 0
and tags 7 to 14 (30_encoding.md R85). NONE for those tags is the spec's own decision D24, and exact recovery at
`w = 10` rests on its decision D3: log 24. -/
def Obligations.OpcodeTagSurvivesTheImage : Prop :=
  (∀ (w : WordLength) (e : Entry) (op : Opcode), Opcode.ofTag e.op = some op →
    decodeTag w (encodeImage w e) = some op ∧ op.tag = e.op) ∧
  (∀ (w : WordLength) (word : Word),
    decodeTag w word = Opcode.ofTag (BitVec.ofNat 4 (word.toNat / 2 ^ (w.bits - 4)))) ∧
  [1, 2, 3, 4, 5, 6, 15].map Opcode.ofTag =
    [some .ldi, some .add, some .store, some .load, some .jmp, some .jz, some .hlt] ∧
  (∀ t : BitVec 4, Opcode.ofTag t = none ↔ t.toNat = 0 ∨ (7 ≤ t.toNat ∧ t.toNat ≤ 14))

/-- The image words at `w = 16`, field by field from the most significant bit (30_encoding.md R82). That the immediate
is masked to the 11 bits beside the selector is the spec's own decision D4: log 24. -/
def Obligations.ImageFormatsAt16Bits : Prop :=
  ∀ (r s : Reg) (imm a : Int),
    encode .w16 (.ldi r imm) = 1#4 ++ r.sel ++ BitVec.ofInt 11 imm ∧
    encode .w16 (.add r s) = 2#4 ++ 0#10 ++ r.sel ++ s.sel ∧
    encode .w16 (.store r a) = 3#4 ++ 0#5 ++ r.sel ++ BitVec.ofInt 6 a ∧
    encode .w16 (.load r a) = 4#4 ++ 0#5 ++ r.sel ++ BitVec.ofInt 6 a ∧
    encode .w16 (.jmp a) = 5#4 ++ 0#6 ++ BitVec.ofInt 6 a ∧
    encode .w16 (.jz r a) = 6#4 ++ 0#5 ++ r.sel ++ BitVec.ofInt 6 a ∧
    encode .w16 .hlt = 15#4 ++ 0#12

/-- The image words at `w = 10`, in the low ten bits of the cell: the selector of `STORE`, `LOAD` and `JZ` is not
represented (30_encoding.md R83). That the payload is confined, so that the selector is dropped, is the spec's own
decision D3, and the 5-bit immediate its decision D4: log 24. -/
def Obligations.ImageFormatsAt10Bits : Prop :=
  ∀ (r s : Reg) (imm a : Int),
    encode .w10 (.ldi r imm) = 0#6 ++ 1#4 ++ r.sel ++ BitVec.ofInt 5 imm ∧
    encode .w10 (.add r s) = 0#6 ++ 2#4 ++ 0#4 ++ r.sel ++ s.sel ∧
    encode .w10 (.store r a) = 0#6 ++ 3#4 ++ BitVec.ofInt 6 a ∧
    encode .w10 (.load r a) = 0#6 ++ 4#4 ++ BitVec.ofInt 6 a ∧
    encode .w10 (.jmp a) = 0#6 ++ 5#4 ++ BitVec.ofInt 6 a ∧
    encode .w10 (.jz r a) = 0#6 ++ 6#4 ++ BitVec.ofInt 6 a ∧
    encode .w10 .hlt = 0#6 ++ 15#4 ++ 0#6

/-- Reading a 16-bit image word and writing it agree: a word that reads as an instruction is that instruction's image,
and an instruction reads back from its image when its immediate fits the 11-bit slot. Which of the immediates that
share a word is read is the model's choice (log 8); execution never reads an image word (30_encoding.md R70). -/
def Obligations.ImageWordsReadBack : Prop :=
  (∀ (word : Word) (i : Instr), decodeImage word = .ok i → encode .w16 i = word) ∧
  (∀ i : Instr, i.wellFormed .w16 = true → (∀ r imm, i = .ldi r imm → -1024 ≤ imm ∧ imm ≤ 1023) →
    decodeImage (encode .w16 i) = .ok i)

/-- Words written out bit by bit from 30_encoding.md R82 read as the instruction they stand for; the `LDI` word by the
model's choice of log 8. -/
def Obligations.WrittenOutWordsDecode : Prop :=
  decodeTableWord 16 0b0001100000000011 = some (.ldi .B 3) ∧
  decodeTableWord 16 0b0010000000000001 = some (.add .A .B) ∧
  decodeTableWord 16 0b0011000001001010 = some (.store .B 10) ∧
  decodeTableWord 16 0b0100000000000101 = some (.load .A 5) ∧
  decodeTableWord 16 0b0101000000111111 = some (.jmp 63) ∧
  decodeTableWord 16 0b0110000001000100 = some (.jz .B 4) ∧
  decodeTableWord 16 0b1111000000000000 = some .hlt

/-- What the image word keeps of the operands: at either width two `LDI` have the same word exactly when they name the
same register and their immediates agree in the low `w - 5` bits; at `w = 10` two `STORE`, two `LOAD` or two `JZ` have
the same word exactly when their addresses agree in the low 6 bits, whatever the registers (30_encoding.md R84). The
masks are the spec's own decisions D3 and D4: log 24. -/
def Obligations.ImageLosesOperandBits : Prop :=
  (∀ (w : WordLength) (r q : Reg) (imm imm' : Int),
    encode w (.ldi r imm) = encode w (.ldi q imm') ↔
      r = q ∧ imm % (2 ^ (w.bits - 5) : Nat) = imm' % (2 ^ (w.bits - 5) : Nat)) ∧
  (∀ (r q : Reg) (a b : Int),
    (encode .w10 (.store r a) = encode .w10 (.store q b) ↔ a % 64 = b % 64) ∧
    (encode .w10 (.load r a) = encode .w10 (.load q b) ↔ a % 64 = b % 64) ∧
    (encode .w10 (.jz r a) = encode .w10 (.jz q b) ↔ a % 64 = b % 64))

/-! ## What each instruction does -/

/-- `LDI r, imm` completes in every state: `x[r]` and `DR` become `mask_w(imm)`, `PC` advances, and nothing else of the
registers, flags, memory or halt state changes (41_ldi_add.md R120, 40_step_cycle.md R107). `AR` unchanged is the
spec's own decision D7: log 24. -/
def Obligations.LdiWritesTheMaskedImmediate : Prop :=
  ∀ (r : Reg) (imm : Int) (s : State), ∃ t, exec (.ldi r imm) s = .next t ∧
    t.gpr r = mask s.wordLength imm ∧ t.DR = mask s.wordLength imm ∧
    t.PC = mask s.wordLength (s.PC.toNat + 1) ∧
    (∀ q, q ≠ r → t.gpr q = s.gpr q) ∧ t.AR = s.AR ∧ t.halted = s.halted ∧ t.phase = .execute ∧
    sameFlags s t ∧ sameMemory s t ∧ sameFixed s t

/-- `ADD d, s` completes in every state: `x[d]` and `DR` become the sum of the old operands modulo `2^w`, `SF` its sign
bit, `OF` the unsigned carry-out; also when `d = s`. Nothing else changes (41_ldi_add.md R122, R123, R124). `OF` as the
unsigned carry-out is log 10 (DEDUCED, unsafe: conflict C1), and `AR` unchanged is the spec's own decision D7: log 24. -/
def Obligations.AddWritesTheSumAndBothFlags : Prop :=
  ∀ (d src : Reg) (s : State), ∃ t, exec (.add d src) s = .next t ∧
    (t.gpr d).toNat = ((s.gpr d).toNat + (s.gpr src).toNat) % 2 ^ s.wordLength.bits ∧ t.DR = t.gpr d ∧
    (t.SF = true ↔ 2 ^ (s.wordLength.bits - 1) ≤ (t.gpr d).toNat) ∧
    (t.SF = true ↔ signedValue s.wordLength (t.gpr d) < 0) ∧
    (t.OF = true ↔ 2 ^ s.wordLength.bits ≤ (s.gpr d).toNat + (s.gpr src).toNat) ∧
    t.PC = mask s.wordLength (s.PC.toNat + 1) ∧
    (∀ q, q ≠ d → t.gpr q = s.gpr q) ∧ t.AR = s.AR ∧ t.halted = s.halted ∧ t.phase = .execute ∧
    sameMemory s t ∧ sameFixed s t

/-- `ADD r, r` doubles the register: `OF` is its old bit `w - 1` and `SF` its old bit `w - 2` (41_ldi_add.md R125, which
the spec marks as its own derivation); `ADD A, B` writes only `A`, `ADD B, A` only `B`. The `OF` clause rests on log 10
(DEDUCED, unsafe: conflict C1). -/
def Obligations.AddSameRegisterDoubles : Prop :=
  (∀ (r : Reg) (s t : State), (s.gpr r).toNat < 2 ^ s.wordLength.bits → exec (.add r r) s = .next t →
    t.gpr r = mask s.wordLength (2 * ((s.gpr r).toNat : Int)) ∧
    t.OF = (s.gpr r).getLsbD (s.wordLength.bits - 1) ∧ t.SF = (s.gpr r).getLsbD (s.wordLength.bits - 2)) ∧
  (∀ s t : State, exec (.add .A .B) s = .next t → t.B = s.B) ∧
  (∀ s t : State, exec (.add .B .A) s = .next t → t.A = s.A)

/-- `LOAD r, a` with `a` in `[0, 64)` completes: `x[r]` and `DR` become the word at `a`, `AR` becomes `a`, `PC`
advances; flags and memory are unchanged (42_load_store.md R130). The memory holds words of the current length. `AR` is
the spec's own decision D6, and the bus values its decision D14: log 24. -/
def Obligations.LoadReadsTheCell : Prop :=
  ∀ (r : Reg) (a : Int) (s : State), 0 ≤ a → a < 64 → s.mem.fits s.wordLength = true →
    ∃ t, exec (.load r a) s = .next t ∧
      t.gpr r = s.mem.read a.toNat ∧ t.DR = s.mem.read a.toNat ∧ (t.AR.toNat : Int) = a ∧
      t.PC = mask s.wordLength (s.PC.toNat + 1) ∧
      (∀ q, q ≠ r → t.gpr q = s.gpr q) ∧ t.halted = s.halted ∧ t.phase = .execute ∧
      t.bus.AB = a.toNat ∧ t.bus.DB = (s.mem.read a.toNat).toNat ∧
      sameFlags s t ∧ sameMemory s t ∧ sameFixed s t

/-- `STORE r, a` with `a` in `[0, 64)` completes: the cell at the effective address becomes `mask_w(x[r])`, every other
cell reads as before, `AR` becomes `a`, `DR` the stored value, `PC` advances, and the step ends in writeback; general
registers and flags are unchanged (42_load_store.md R131). The memory is in canonical form. The bus values are the
spec's own decision D14: log 24. -/
def Obligations.StoreWritesOnlyItsCell : Prop :=
  ∀ (r : Reg) (a : Int) (s : State), 0 ≤ a → a < 64 → s.mem.wf = true →
    ∃ t, exec (.store r a) s = .next t ∧
      t.mem.read (effectiveAddress a).toNat = mask s.wordLength (s.gpr r).toNat ∧
      (∀ b, b ≠ (effectiveAddress a).toNat → t.mem.read b = s.mem.read b) ∧
      (t.AR.toNat : Int) = a ∧ t.DR = mask s.wordLength (s.gpr r).toNat ∧
      t.PC = mask s.wordLength (s.PC.toNat + 1) ∧
      (∀ q, t.gpr q = s.gpr q) ∧ t.halted = s.halted ∧ t.phase = .writeback ∧
      t.bus.AB = a.toNat ∧ t.bus.DB = (s.gpr r).toNat ∧
      sameFlags s t ∧ sameFixed s t

/-- `JMP a` with `a` in `[0, 64)` completes: `PC` becomes `a`, and registers, flags, memory and halt state are
unchanged (43_control.md R141). `DR` and `AR` unchanged is the spec's own decision D7: log 24. -/
def Obligations.JmpSetsThePc : Prop :=
  ∀ (a : Int) (s : State), 0 ≤ a → a < 64 →
    ∃ t, exec (.jmp a) s = .next t ∧ (t.PC.toNat : Int) = a ∧
      (∀ q, t.gpr q = s.gpr q) ∧ t.DR = s.DR ∧ t.AR = s.AR ∧ t.halted = s.halted ∧ t.phase = .execute ∧
      sameFlags s t ∧ sameMemory s t ∧ sameFixed s t

/-- `JZ r, a` with `a` in `[0, 64)` completes: `PC` becomes `a` if the register is exactly zero, else `PC + 1`;
registers, flags, memory and halt state are unchanged (43_control.md R142). `DR` and `AR` unchanged is the spec's own
decision D7: log 24. -/
def Obligations.JzBranchesOnExactZero : Prop :=
  ∀ (r : Reg) (a : Int) (s : State), 0 ≤ a → a < 64 →
    ∃ t, exec (.jz r a) s = .next t ∧
      (s.gpr r = 0 → (t.PC.toNat : Int) = a) ∧
      (s.gpr r ≠ 0 → t.PC = mask s.wordLength (s.PC.toNat + 1)) ∧
      (∀ q, t.gpr q = s.gpr q) ∧ t.DR = s.DR ∧ t.AR = s.AR ∧ t.halted = s.halted ∧ t.phase = .execute ∧
      sameFlags s t ∧ sameMemory s t ∧ sameFixed s t

/-- `HLT` completes in every state: `halted` is set, `PC` is not advanced, and registers, flags and memory are
unchanged (43_control.md R144). `DR` and `AR` unchanged is the spec's own decision D7: log 24. -/
def Obligations.HltHaltsInPlace : Prop :=
  ∀ s : State, ∃ t, exec .hlt s = .next t ∧ t.halted = true ∧ t.PC = s.PC ∧
    (∀ q, t.gpr q = s.gpr q) ∧ t.DR = s.DR ∧ t.AR = s.AR ∧ t.phase = .halt ∧
    sameFlags s t ∧ sameMemory s t ∧ sameFixed s t

/-- `LOAD` and `STORE` with an address outside `[0, 64)` raise `OutOfRangeAddress` with the address
(20_memory.md R52, R53, R54). -/
def Obligations.OutOfRangeAddressFaults : Prop :=
  ∀ (r : Reg) (a : Int) (s : State), ¬(0 ≤ a ∧ a < 64) →
    exec (.load r a) s = .fault (.outOfRangeAddress a) ∧ exec (.store r a) s = .fault (.outOfRangeAddress a) ∧
    s.memRead a = .error (.outOfRangeAddress a) ∧ ∀ v, s.memWrite a v = .error (.outOfRangeAddress a)

/-- `MemRead` answers the word at the address with no other effect, and `MemWrite` puts `mask_w(v)` there, leaves every
other cell, and changes nothing but memory; outside `[0, 64)` both raise `OutOfRangeAddress` with the address
(20_memory.md R53, R54). -/
def Obligations.MemoryReadsWhatWasWritten : Prop :=
  ∀ (s : State) (a v : Int),
    (¬(0 ≤ a ∧ a < 64) →
      s.memRead a = .error (.outOfRangeAddress a) ∧ s.memWrite a v = .error (.outOfRangeAddress a)) ∧
    (0 ≤ a → a < 64 → s.mem.wf = true →
      s.memRead a = .ok (s.mem.read a.toNat) ∧
      ∃ t, s.memWrite a v = .ok t ∧ t = s.setMem t.mem ∧ t.memRead a = .ok (mask s.wordLength v) ∧
        ∀ b, b ≠ a.toNat → t.mem.read b = s.mem.read b)

/-- A `LOAD` immediately after a `STORE` to the same address returns the stored value, step by step
(70_reset_and_hazards.md R236, 20_memory.md R63). -/
def Obligations.LoadAfterStoreReturnsTheStoredValue : Prop :=
  ∀ (r q : Reg) (a : Int) (s t u : State), s.Inv = true → runs s (.store r a) → step s = .next t →
    runs t (.load q a) → step t = .next u → u.gpr q = s.gpr r

/-- Two memories in canonical form that read alike at every address are equal data. The canonical form is the model's
(log 4). -/
def Obligations.CanonicalMemoriesThatReadAlikeAreEqual : Prop :=
  ∀ m n : Memory, m.wf = true → n.wf = true → (∀ a, m.read a = n.read a) → m = n

/-! ## The step cycle -/

/-- A STEP RUNS THE DECODED INSTRUCTION: where the entry at `PC` decodes to `i`, a step fetches the memory word at
`PC`, runs `exec i` on the fetched state, and retires what it answers: every register masked to the word length, and one
more `cycle` (40_step_cycle.md R100, R104, R105, R108). -/
def Obligations.StepRunsTheDecodedInstruction : Prop :=
  (∀ (s : State) (i : Instr), runs s i → ∃ s1,
    (∃ e, s.prog[s.PC.toNat]? = some e ∧ fetch e s = .ok s1) ∧
    step s = retireOutcome (exec i s1)) ∧
  (∀ s : State, retireOutcome (.next s) = .next (retire s)) ∧
  (∀ f, retireOutcome (.fault f) = .fault f) ∧ (∀ r, retireOutcome (.refused r) = .refused r) ∧
  (∀ s : State, (retire s).cycle = s.cycle + 1 ∧ (∀ r, (retire s).reg r = mask s.wordLength (s.reg r).toNat) ∧
    (retire s).mem = s.mem ∧ sameFlags s (retire s) ∧ (retire s).IR = s.IR ∧ (retire s).halted = s.halted ∧
    (retire s).phase = s.phase ∧ (retire s).bus = s.bus ∧ (retire s).prog = s.prog)

/-- The fetch micro-step: `DR` becomes the memory word at `PC`, `AR` becomes `PC`, `IR` the tag of the entry, and the
bus trace shows the address and the word; the general registers, `PC`, `SP`, flags, memory and program are unchanged
(40_step_cycle.md R103, R112). The bus values are the spec's own decision D14: log 24. -/
def Obligations.FetchCopiesTheMemoryWord : Prop :=
  ∀ (e : Entry) (s : State), s.PC.toNat < 64 → s.mem.fits s.wordLength = true →
    ∃ t, fetch e s = .ok t ∧ t.DR = s.mem.read s.PC.toNat ∧ t.AR = s.PC ∧ t.IR = e.op ∧ t.phase = .fetch ∧
      t.bus.AB = s.PC.toNat ∧ t.bus.DB = (s.mem.read s.PC.toNat).toNat ∧
      (∀ q, t.gpr q = s.gpr q) ∧ t.PC = s.PC ∧ t.SP = s.SP ∧ sameFlags s t ∧ t.mem = s.mem ∧
      t.prog = s.prog ∧ t.halted = s.halted ∧ t.cycle = s.cycle ∧ t.wordLength = s.wordLength ∧
      t.displayBase = s.displayBase

/-- A step while halted reports "halted" and changes no state (40_step_cycle.md R101). -/
def Obligations.HaltedStepChangesNothing : Prop :=
  ∀ s : State, s.halted = true → stepReport s = .halted ∧ step s = .next s

/-- Fall-through: a step with no instruction at `PC` sets `halted` and `phase`, changes nothing else, and reports
"no_instruction" (40_step_cycle.md R102). That it changes nothing else is the spec's own decision D8: log 24. -/
def Obligations.FallThroughHaltsAndChangesNothingElse : Prop :=
  ∀ s : State, s.halted = false → s.prog.length ≤ s.PC.toNat →
    stepReport s = .noInstruction { s with halted := true, phase := .halt } ∧
    step s = .next { s with halted := true, phase := .halt }

/-- An entry whose tag names no instruction, and an entry whose operand validation refuses at the current word length,
are refused by name and given no meaning (30_encoding.md R74). -/
def Obligations.IllegalEntriesAreRefused : Prop :=
  ∀ (s : State) (e : Entry), s.halted = false → s.prog[s.PC.toNat]? = some e →
    (Opcode.ofTag e.op = none → step s = .refused (.illegalEntry (.badTag e.op))) ∧
    (∀ i v, decodeEntry e = .ok i → i.violation s.wordLength = some v →
      step s = .refused (.unvalidatedOperand v))

/-- Every executed step writes the next PC of the table of 40_step_cycle.md R107. -/
def Obligations.StepWritesTheNextPcOfTheTable : Prop :=
  ∀ (s t : State) (i : Instr), s.Inv = true → runs s i → step s = .next t → (t.PC.toNat : Int) = nextPC i s

/-- `cycle` counts one for every executed step, `HLT` included, and nothing for a "halted" or "no_instruction" step
(40_step_cycle.md R109). That the other two count nothing is the spec's own decision D8 (log 24), and that the counter
never wraps its decision D9 (log 16). -/
def Obligations.CycleCountsExecutedSteps : Prop :=
  ∀ s t : State, step s = .next t →
    t.cycle = if s.halted = true ∨ s.prog.length ≤ s.PC.toNat then s.cycle else s.cycle + 1

/-- The phase after a step: the table's for an executed step, `halt` after fall-through, unchanged while halted
(40_step_cycle.md R111). The table is the spec's own decision D13: logs 24, 26. -/
def Obligations.StepReportsThePhaseOfTheTable : Prop :=
  (∀ (s t : State) (i : Instr), runs s i → step s = .next t → t.phase = reportedPhase i) ∧
  (∀ s t : State, s.halted = false → s.prog.length ≤ s.PC.toNat → step s = .next t → t.phase = .halt) ∧
  (∀ s t : State, s.halted = true → step s = .next t → t.phase = s.phase)

/-- The micro-step record of an executed step: fetch, execute and, for `STORE` only, writeback; the fetch shows `PC` and
the memory word there, the execute step of `LOAD` and both steps of `STORE` the operand address and the word moved; the
execute entry names the element of the table of 40_step_cycle.md R113 (R106, R112, R113). The bus values are the spec's
own decision D14: log 24. -/
def Obligations.ExecutedStepsRecordTheirMicroSteps : Prop :=
  ∀ (s t : State) (i : Instr) (rec : List MicroStep), s.Inv = true → runs s i → stepReport s = .ok t rec →
    let bus := fun k : Nat => rec[k]?.map fun m => (m.trace.AB, m.trace.DB)
    let touches := fun x : Touched => rec[1]?.bind (fun m => m.action.map (·.touched)) = some x
    rec.map (·.kind) =
      (if i.opcode = .store then [Phase.fetch, Phase.execute, Phase.writeback] else [Phase.fetch, Phase.execute]) ∧
    bus 0 = some (s.PC.toNat, (s.mem.read s.PC.toNat).toNat) ∧
    (∀ r imm, i = .ldi r imm → touches (.register r)) ∧
    (∀ d src, i = .add d src → touches (.register d)) ∧
    (∀ r a, i = .load r a → touches (.register r) ∧ bus 1 = some (a.toNat, (s.mem.read a.toNat).toNat)) ∧
    (∀ r a, i = .store r a → touches (.cell a) ∧
      bus 1 = some (a.toNat, (s.gpr r).toNat) ∧ bus 2 = some (a.toNat, (s.gpr r).toNat)) ∧
    (∀ a, i = .jmp a → touches .pc) ∧
    (∀ r a, i = .jz r a → touches .pc) ∧
    (i = .hlt → touches .halted) ∧
    rec.getLast?.map (·.trace) = some t.bus

/-- No step changes the program, the word length or the display base: only host commands do (10_state.md R35,
R32, R20). -/
def Obligations.StepsKeepProgramAndConfiguration : Prop :=
  ∀ s t : State, step s = .next t →
    t.prog = s.prog ∧ t.wordLength = s.wordLength ∧ t.displayBase = s.displayBase

/-- Memory changes in a step only at the operand address of an executed `STORE` (20_memory.md R55). -/
def Obligations.OnlyStoreWritesMemory : Prop :=
  ∀ (s t : State) (b : Nat), s.Inv = true → step s = .next t → t.mem.read b ≠ s.mem.read b →
    ∃ r a, runs s (.store r a) ∧ b = (effectiveAddress a).toNat

/-- A general register changes in a step only under `LDI`, `ADD` or `LOAD` with that register as its destination
(10_state.md R22). -/
def Obligations.OnlyLdiAddLoadWriteGeneralRegisters : Prop :=
  ∀ (s t : State) (g : Reg), s.Inv = true → step s = .next t → t.gpr g ≠ s.gpr g →
    (∃ imm, runs s (.ldi g imm)) ∨ (∃ src, runs s (.add g src)) ∨ (∃ a, runs s (.load g a))

/-- A flag changes in a step only under `ADD` (10_state.md R25, R26). -/
def Obligations.OnlyAddWritesTheFlags : Prop :=
  ∀ s t : State, step s = .next t → ¬sameFlags s t → ∃ d src, runs s (.add d src)

/-- The halt logic has exactly two inputs: a running machine is halted after a step exactly when the step executed
`HLT` or fell through, and a step never clears `halted`; the step's report tells the two causes apart; no host command
but the two that step halts a running machine (43_control.md R145). -/
def Obligations.HaltHasExactlyTwoCauses : Prop :=
  (∀ s t : State, step s = .next t →
    (s.halted = true → t.halted = true) ∧
    (s.halted = false → (t.halted = true ↔ runs s .hlt ∨ s.prog.length ≤ s.PC.toNat)) ∧
    (runs s .hlt → ∃ rec, stepReport s = .ok t rec) ∧
    (s.halted = false → s.prog.length ≤ s.PC.toNat → stepReport s = .noInstruction t)) ∧
  (∀ (c : Command) (s : State), s.halted = false → (command c s).state.halted = true →
    c = .step ∨ ∃ n, c = .runUntilHalt n)

/-- Stored data never steers execution: with any other contents of memory the step still completes, with the same `PC`,
`IR`, flags, `halted`, `cycle`, `phase` and program, and, unless it executes `LOAD`, the same general registers
(20_memory.md R66, R61). -/
def Obligations.MemoryContentsNeverSteerExecution : Prop :=
  ∀ (s t : State) (m : Memory), step s = .next t → ∃ u, step (s.setMem m) = .next u ∧
    u.PC = t.PC ∧ u.IR = t.IR ∧ u.SF = t.SF ∧ u.OF = t.OF ∧ u.halted = t.halted ∧ u.cycle = t.cycle ∧
    u.phase = t.phase ∧ u.prog = t.prog ∧
    ((∀ r a, ¬runs s (.load r a)) → ∀ g, u.gpr g = t.gpr g)

/-- No step and no host command reads `phase` or `displayBase`: a running machine steps to the same state from every
phase; a step carries the display base along unread; and with any other phase and display base in place a command leaves
the same state but for those two, and fails exactly when it did, with the same error (10_state.md R32, 40_step_cycle.md
R111, 45_host_commands.md R171). That `phase` gates nothing is the spec's own decision D18: log 24. -/
def Obligations.PhaseAndDisplayBaseGateNothing : Prop :=
  (∀ (s : State) (p : Phase), s.halted = false → step { s with phase := p } = step s) ∧
  (∀ (s t : State) (b : DisplayBase), step s = .next t →
    step { s with displayBase := b } = .next { t with displayBase := b }) ∧
  (∀ (c : Command) (s : State) (p : Phase) (b : DisplayBase),
    let other := command c { s with phase := p, displayBase := b }
    (∃ q d, other.state = { (command c s).state with phase := q, displayBase := d }) ∧
    ∀ e, other.response = .error e ↔ (command c s).response = .error e)

/-! ## Reset and the invariant -/

/-- The power-on state: every register 0 but `SP = 63`, `IR` NONE, flags, `halted` and `cycle` 0, the bus trace
cleared, every cell 0, no program, phase `idle`, word length and display base at their OPEN parameters
(70_reset_and_hazards.md R230, 10_state.md R38). Tag 0 as NONE and the cleared bus trace are the spec's own decisions
D10 and D14 (log 24); the OPEN parameters are opaque (logs 1, 2). -/
def Obligations.PowerOnState : Prop :=
  let s := State.reset
  s.A = 0 ∧ s.B = 0 ∧ s.DR = 0 ∧ s.AR = 0 ∧ s.PC = 0 ∧ s.SP = 63 ∧ s.IR = 0 ∧ s.SF = false ∧ s.OF = false ∧
  s.halted = false ∧ s.cycle = 0 ∧ s.bus.AB = 0 ∧ s.bus.DB = 0 ∧ s.bus.control = none ∧ s.bus.activePaths = [] ∧
  (∀ a, s.mem.read a = 0) ∧ s.prog = [] ∧ s.phase = .idle ∧
  s.wordLength = Config.initialWordLength ∧ s.displayBase = Config.initialDisplayBase

/-- The power-on state satisfies the invariant, whichever word length it starts with (10_state.md R34). -/
def Obligations.PowerOnSatisfiesTheInvariant : Prop :=
  State.reset.Inv = true

/-- AN INVARIANT THAT EVERY STEP KEEPS: registers and cells are `w`-bit words, memory is in canonical form within 64
cells, `PC ≤ 64`, `n ≤ 64`, every entry is valid, `SP = 63` (10_state.md R34, R30). -/
def Obligations.EveryStepKeepsTheInvariant : Prop :=
  ∀ s t : State, s.Inv = true → step s = .next t → t.Inv = true

/-- In every state that satisfies the invariant a step completes: no loaded program raises `OutOfRangeAddress`, and the
decoder never meets an illegal entry (60_exceptions.md R202, 30_encoding.md R74). -/
def Obligations.LoadedProgramsNeverFault : Prop :=
  ∀ s : State, s.Inv = true → ∃ t, step s = .next t

/-- Every host command, with any argument, successful or not, keeps the invariant (10_state.md R34). -/
def Obligations.EveryHostCommandKeepsTheInvariant : Prop :=
  ∀ (c : Command) (s : State), s.Inv = true → (command c s).state.Inv = true

/-! ## Host commands -/

/-- A host command that fails leaves the state as it was and notifies nothing; the exception is `runUntilHalt`, whose
steps stay committed (60_exceptions.md R216, 45_host_commands.md R165, R170). That it notifies nothing is the spec's own
decision D22 (R174): log 24. -/
def Obligations.FailedCommandsChangeNothing : Prop :=
  ∀ (c : Command) (s : State) (e : HostError), (command c s).response = .error e →
    (∀ n, c ≠ .runUntilHalt n) → (command c s).state = s ∧ (command c s).notices = .none

/-- `validate` checks the instructions in program order and fails at the first violation, with its index and value; it
succeeds exactly when every `LDI` immediate is in the signed range of the width and every address in `[0, 64)`; `ADD`
and `HLT` always pass (45_host_commands.md R163). The order of the checks is the spec's own decision D27: log 24. -/
def Obligations.ValidationReportsTheFirstViolation : Prop :=
  (∀ (p : List Instr) (w : WordLength) (k : Nat) (v : Int),
    validate p w = .error (.rangeError k v) ↔
      (∃ x, p[k]? = some x ∧ x.violation w = some v) ∧ ∀ j y, j < k → p[j]? = some y → y.wellFormed w = true) ∧
  (∀ (p : List Instr) (w : WordLength), validate p w = .ok () ↔ ∀ x ∈ p, x.wellFormed w = true) ∧
  (∀ (w : WordLength) (r : Reg) (imm : Int), (Instr.ldi r imm).violation w =
    if -(2 ^ (w.bits - 1) : Nat) ≤ imm ∧ imm ≤ (2 ^ (w.bits - 1) : Nat) - 1 then none else some imm) ∧
  (∀ (w : WordLength) (r : Reg) (a : Int),
    (Instr.store r a).violation w = (if 0 ≤ a ∧ a < 64 then none else some a) ∧
    (Instr.load r a).violation w = (if 0 ≤ a ∧ a < 64 then none else some a) ∧
    (Instr.jmp a).violation w = (if 0 ≤ a ∧ a < 64 then none else some a) ∧
    (Instr.jz r a).violation w = (if 0 ≤ a ∧ a < 64 then none else some a)) ∧
  (∀ (w : WordLength) (d src : Reg), (Instr.add d src).violation w = none ∧ Instr.hlt.violation w = none)

/-- What `loadProgram` does with a source, check by check (45_host_commands.md R161). A source that does not parse is
refused with the parser's error. `loadInstrs` is the rest: `ProgramTooLarge` is raised exactly when the instruction count
exceeds 64, whatever the operands (R162); a program of at most 64 instructions is refused with the first violation
`validate` reports (R163), and, valid, is loaded and counted, with its image from cell 0 on: 64 instructions fill the
whole memory. A refusal changes nothing (R165). The order of the checks and that a refusal notifies nothing are the
spec's own decisions D27 and D22: log 24. -/
def Obligations.ProgramsOfAtMost64InstructionsLoad : Prop :=
  (∀ (text : String) (s : State),
    (∀ e, parse text = .error e → loadProgram text s = ⟨s, .error (.parseError e), .none⟩) ∧
    (∀ p, parse text = .ok p → loadProgram text s = loadInstrs p s)) ∧
  (∀ (p : List Instr) (s : State),
    ((loadInstrs p s).response = .error (.programTooLarge p.length) ↔ 64 < p.length) ∧
    (64 < p.length → loadInstrs p s = ⟨s, .error (.programTooLarge p.length), .none⟩) ∧
    (p.length ≤ 64 → ∀ e, validate p s.wordLength = .error e → loadInstrs p s = ⟨s, .error e, .none⟩) ∧
    (p.length ≤ 64 → (∀ x ∈ p, x.wellFormed s.wordLength = true) →
      (loadInstrs p s).response = .count p.length ∧ (loadInstrs p s).state.prog = p.map encodeEntry ∧
      ∀ i x, p[i]? = some x → (loadInstrs p s).state.mem.read i = encode s.wordLength x))

/-- After a successful `loadProgram` or a `reset`, the state is determined: cell `i` holds the image word of entry `i` for
`i < n` and every other cell is 0 (70_reset_and_hazards.md R233); registers, flags, `halted`, `cycle` and the bus trace
have the values of the CPU reset (10_state.md R38); the word length and the display base are kept. `reset` keeps the
program and leaves phase `idle`; `loadProgram` stores the parsed program, answers its count, and leaves phase `ready`
(45_host_commands.md R164, R167; 40_step_cycle.md R111). Tag 0 as NONE, the phases, the cleared bus trace and what
`reset` keeps are the spec's own decisions D10, D13, D14 and D17: log 24. -/
def Obligations.LoadAndResetLeaveTheImage : Prop :=
  ∀ (c : Command) (s : State), (c = .reset ∨ ∃ text n, c = .loadProgram text ∧ (command c s).response = .count n) →
    let t := (command c s).state
    (∀ i e, t.prog[i]? = some e → t.mem.read i = encodeImage t.wordLength e) ∧
    (∀ i, t.prog.length ≤ i → t.mem.read i = 0) ∧
    t.A = 0 ∧ t.B = 0 ∧ t.DR = 0 ∧ t.AR = 0 ∧ t.PC = 0 ∧ t.SP = 63 ∧ t.IR = 0 ∧
    t.SF = false ∧ t.OF = false ∧ t.halted = false ∧ t.cycle = 0 ∧
    t.bus.AB = 0 ∧ t.bus.DB = 0 ∧ t.bus.control = none ∧ t.bus.activePaths = [] ∧
    t.wordLength = s.wordLength ∧ t.displayBase = s.displayBase ∧
    (c = .reset → t.prog = s.prog ∧ t.phase = .idle ∧ (command c s).response = .done) ∧
    (∀ text, c = .loadProgram text → t.phase = .ready ∧
      ∃ p, parse text = .ok p ∧ t.prog = p.map encodeEntry ∧ (command c s).response = .count p.length)

/-- A successful width change clips every register and every cell past the program, without sign extension, rewrites
the image, and leaves the flags, `halted`, `cycle`, `IR`, the bus trace, `phase`, the program and the display base
unchanged (45_host_commands.md R169, 10_state.md R33). That cells past the program are kept is the spec's own decision
D16, and what is left unchanged its decision D28: log 24. -/
def Obligations.WidthChangeClipsAndRewritesTheImage : Prop :=
  ∀ (bits : Int) (s : State), s.mem.wf = true → (setWordLength bits s).response = .done →
    let t := (setWordLength bits s).state
    (t.wordLength.bits : Int) = bits ∧
    (∀ r, (t.reg r).toNat = (s.reg r).toNat % 2 ^ t.wordLength.bits) ∧
    (∀ i e, s.prog[i]? = some e → t.mem.read i = encodeImage t.wordLength e) ∧
    (∀ i, s.prog.length ≤ i → (t.mem.read i).toNat = (s.mem.read i).toNat % 2 ^ t.wordLength.bits) ∧
    sameFlags s t ∧ t.halted = s.halted ∧ t.cycle = s.cycle ∧ t.IR = s.IR ∧ t.bus = s.bus ∧ t.phase = s.phase ∧
    t.prog = s.prog ∧ t.displayBase = s.displayBase

/-- A width outside `{10, 16}` is refused with `UnsupportedConfiguration`. A supported one is accepted exactly when the
loaded program passes validation at it; otherwise the answer is `RangeError` with the index and the value of the first
entry that does not. A refusal changes nothing (45_host_commands.md R168, R170; 60_exceptions.md R207). That it notifies
nothing is the spec's own decision D22, and the order of the checks its decision D27: log 24. -/
def Obligations.WidthChangeIsAllOrNothing : Prop :=
  ∀ (bits : Int) (s : State),
    (bits ≠ 10 → bits ≠ 16 →
      setWordLength bits s = ⟨s, .error (.unsupportedConfiguration (.wordLength bits)), .none⟩) ∧
    (∀ w : WordLength, bits = w.bits → s.prog.all (Entry.valid .w16) = true →
      ((setWordLength bits s).response = .done ↔ s.prog.all (Entry.valid w) = true) ∧
      (s.prog.all (Entry.valid w) = false →
        (setWordLength bits s).state = s ∧ (setWordLength bits s).notices = .none ∧
        ∃ k v, (setWordLength bits s).response = .error (.rangeError k v)) ∧
      (∀ k v, (setWordLength bits s).response = .error (.rangeError k v) ↔
        (∃ e i, s.prog[k]? = some e ∧ decodeEntry e = .ok i ∧ i.violation w = some v) ∧
        ∀ j e, j < k → s.prog[j]? = some e → Entry.valid w e = true))

/-- `runUntilHalt` ends halted with a snapshot, or fails with `NonTermination` after exactly `maxSteps` executed steps,
all of them committed; either way its state is the one some number of steps, at most `maxSteps`, leads to, and on a
halted machine it returns at once (45_host_commands.md R172, R173). The details of the loop are the spec's own decision
D12: log 24. -/
def Obligations.RunUntilHaltHaltsOrExhaustsTheBudget : Prop :=
  ∀ (maxSteps : Nat) (s : State), s.Inv = true →
    let r := runUntilHalt maxSteps s
    ((r.state.halted = true ∧ r.response = .snapshot r.state.snapshot) ∨
      (r.state.halted = false ∧ r.response = .error (.nonTermination maxSteps) ∧
        r.state.cycle = s.cycle + maxSteps)) ∧
    (∃ k, k ≤ maxSteps ∧ Host.Core.run Sys2Proof.core k s = .next r.state) ∧
    (s.halted = true → r.state = s)

/-! ## The assembler -/

/-- The parser stops at the first invalid line and names it: where the source, cut at its line feeds, has only blank and
valid lines before an invalid one, the parse fails with that line's 1-based number and its ground; a source with only
blank and comment-only lines fails without a line (30_encoding.md R90, R94). That last class is the spec's own decision
D26 (log 24); the lexical details are its decision D15 and the model's choices of log 11, line feeds among them. -/
def Obligations.ParserNamesTheFirstInvalidLine : Prop :=
  (∀ text : List Char, List.intercalate ['\n'] (splitAtChar '\n' text) = text ∧
    ∀ l ∈ splitAtChar '\n' text, '\n' ∉ l) ∧
  (∀ (text : String) (before : List (List Char)) (line : List Char) (after : List (List Char)) (why : ParseReason),
    splitAtChar '\n' text.toList = before ++ line :: after →
    (∀ l ∈ before, trim (stripComment l) = [] ∨ ∃ i, parseLine (trim (stripComment l)) = .ok i) →
    trim (stripComment line) ≠ [] → parseLine (trim (stripComment line)) = .error why →
    parse text = .error ⟨some (before.length + 1), why⟩) ∧
  (∀ text : String, (∀ l ∈ splitAtChar '\n' text.toList, trim (stripComment l) = []) →
    parse text = .error ⟨none, .noInstructions⟩)

/-- A parse that succeeds yields at least one instruction, the number of its lines that are neither blank nor
comment-only (30_encoding.md R90, R94). Which characters end a line or are whitespace is log 11. -/
def Obligations.ParsedProgramsHaveOneInstructionPerLine : Prop :=
  ∀ (text : String) (p : List Instr), parse text = .ok p →
    p ≠ [] ∧
    p.length = ((splitAtChar '\n' text.toList).filter fun l => decide (trim (stripComment l) ≠ [])).length

/-! ## The display base -/

/-- `setDisplayBase` accepts the names `bin`, `hex` and `dec` and no other: it then writes the display base, changes
nothing else of the state, and notifies the state-change channel; any other name is refused with
`UnsupportedConfiguration` and changes nothing (45_host_commands.md R171). That a name is its exact lower-case spelling
is the model's choice (log 20), and that a refusal notifies nothing the spec's own decision D22 (log 24). -/
def Obligations.DisplayBaseCommandWritesOnlyTheDisplayBase : Prop :=
  ∀ s : State,
    (∀ name b, (name, b) ∈ [("bin", DisplayBase.bin), ("hex", .hex), ("dec", .dec)] →
      let t := { s with displayBase := b }
      setDisplayBase name s = ⟨t, .done, ⟨[t.snapshot], []⟩⟩) ∧
    (∀ name, name ≠ "bin" → name ≠ "hex" → name ≠ "dec" →
      setDisplayBase name s = ⟨s, .error (.unsupportedConfiguration (.displayBase name)), .none⟩)
end

