-- ==== Sys2Proof/Laws/Words.lean ====
section
/-! SUPPORT. Masking (00_scope.md R9) and the parameters of the two word lengths. -/

namespace Sys2Proof.Machine

/-- The numbers of a word length: every proof about masking is linear arithmetic over these. -/
theorem modulus_cases (w : WordLength) :
    (w.modulus = 1024 ∧ w.half = 512 ∧ w.bits = 10) ∨ (w.modulus = 65536 ∧ w.half = 32768 ∧ w.bits = 16) := by
  cases w <;> decide

theorem modulus_eq (w : WordLength) : w.modulus = 2 ^ w.bits := by cases w <;> rfl

theorem toNat_mask (w : WordLength) (v : Int) : ((mask w v).toNat : Int) = v % (w.modulus : Int) := by
  unfold mask
  rw [BitVec.toNat_ofNat]
  obtain ⟨h, -⟩ | ⟨h, -⟩ := modulus_cases w <;> rw [h] <;> omega

theorem mask_lt (w : WordLength) (v : Int) : (mask w v).toNat < w.modulus := by
  have h := toNat_mask w v
  obtain ⟨hm, -⟩ | ⟨hm, -⟩ := modulus_cases w <;> rw [hm] at h ⊢ <;> omega

theorem isWord_mask (w : WordLength) (v : Int) : isWord w (mask w v) = true := by
  simpa [isWord] using mask_lt w v

theorem isWord_iff (w : WordLength) (v : Word) : isWord w v = true ↔ v.toNat < w.modulus := by
  simp [isWord]

/-- A number in range is its own mask. -/
theorem mask_of_lt {w : WordLength} {n : Nat} (h : n < w.modulus) : (mask w n).toNat = n := by
  have := toNat_mask w n
  rw [Int.emod_eq_of_lt (by omega) (by omega)] at this
  omega

/-- A word of the current length is its own mask: why R108 changes no value. -/
theorem mask_word {w : WordLength} {v : Word} (h : v.toNat < w.modulus) : mask w v.toNat = v :=
  BitVec.eq_of_toNat_eq (mask_of_lt h)

/-- An address, up to the 64 that `PC` can reach past the last one, is its own mask at either width. -/
theorem mask_address (w : WordLength) {a : Int} (h0 : 0 ≤ a) (h1 : a ≤ (memorySize : Int)) :
    ((mask w a).toNat : Int) = a := by
  rw [toNat_mask]
  obtain ⟨hm, -⟩ | ⟨hm, -⟩ := modulus_cases w <;> rw [hm] <;> simp only [memorySize] at h1 <;> omega

@[simp] theorem mask_zero (w : WordLength) : mask w 0 = 0 := by cases w <;> decide

/-- The sign bit is set exactly from half the modulus on (41_ldi_add.md R123). -/
theorem signBit_iff {w : WordLength} {v : Word} (h : v.toNat < w.modulus) :
    signBit w v = true ↔ w.half ≤ v.toNat := by
  unfold signBit
  rw [BitVec.getLsbD, Nat.testBit_eq_decide_div_mod_eq, decide_eq_true_iff]
  cases w
  · simp only [WordLength.modulus, WordLength.half, WordLength.bits] at *
    omega
  · simp only [WordLength.modulus, WordLength.half, WordLength.bits] at *
    omega

end Sys2Proof.Machine
end

