-- ==== Sys2Proof/Laws/Memory.lean ====
section
/-! SUPPORT. Memory: read after write, and the canonical form that every memory operation keeps. -/

namespace Sys2Proof.Machine

/-! ## Reads -/

theorem Memory.read_below {lo : Nat} {m : Memory} (h : Memory.risingFrom lo m = true) {a : Nat} (ha : a < lo) :
    m.read a = 0 := by
  induction m generalizing lo with
  | nil => rfl
  | cons c rest ih =>
    simp only [Memory.risingFrom, Bool.and_eq_true, decide_eq_true_eq] at h
    rw [Memory.read, if_neg (by omega)]
    exact ih h.2 (by omega)

theorem Memory.risingFrom_mono {lo hi : Nat} (h : lo ≤ hi) {m : Memory} (hm : Memory.risingFrom hi m = true) :
    Memory.risingFrom lo m = true := by
  cases m with
  | nil => rfl
  | cons c rest =>
    simp only [Memory.risingFrom, Bool.and_eq_true, decide_eq_true_eq] at hm ⊢
    exact ⟨⟨by omega, hm.1.2⟩, hm.2⟩

theorem Memory.read_cons (m : Memory) (a : Nat) (v : Word) (b : Nat) (h : m.read a = 0) :
    (Memory.cons a v m).read b = if b = a then v else m.read b := by
  unfold Memory.cons
  split <;> rename_i hv
  · split <;> simp_all
  · rw [Memory.read]
    simp only [eq_comm]

/-- One cell after a write (20_memory.md R53, R54): the written word at its address, every other cell as before. -/
theorem Memory.read_write {lo : Nat} {m : Memory} (h : Memory.risingFrom lo m = true) (a : Nat) (v : Word) (b : Nat) :
    (Memory.write a v m).read b = if b = a then v else m.read b := by
  induction m generalizing lo with
  | nil => exact Memory.read_cons [] a v b rfl
  | cons c rest ih =>
    have hc := h
    simp only [Memory.risingFrom, Bool.and_eq_true, decide_eq_true_eq] at h
    simp only [Memory.write]
    split
    · refine Memory.read_cons _ a v b ?_
      rw [Memory.read, if_neg (by omega)]
      exact Memory.read_below h.2 (by omega)
    · split <;> rename_i hne
      · subst hne
        rw [Memory.read_cons rest _ v b (Memory.read_below h.2 (by omega)), Memory.read]
        split
        · rfl
        · rw [if_neg (by omega)]
      · rw [Memory.read, Memory.read, ih h.2]
        split
        · rw [if_neg (by omega)]
        · rfl

/-! ## The canonical form -/

theorem Memory.risingFrom_cons {lo a : Nat} {m : Memory} (v : Word) (hlo : lo ≤ a)
    (h : Memory.risingFrom (a + 1) m = true) : Memory.risingFrom lo (Memory.cons a v m) = true := by
  unfold Memory.cons
  split
  · exact Memory.risingFrom_mono (by omega) h
  · rename_i hv
    simp only [Memory.risingFrom, Bool.and_eq_true, decide_eq_true_eq]
    exact ⟨⟨hlo, hv⟩, h⟩

theorem Memory.risingFrom_write {lo a : Nat} {m : Memory} (v : Word) (hlo : lo ≤ a)
    (h : Memory.risingFrom lo m = true) : Memory.risingFrom lo (Memory.write a v m) = true := by
  induction m generalizing lo with
  | nil => exact Memory.risingFrom_cons v hlo rfl
  | cons c rest ih =>
    have hc := h
    simp only [Memory.risingFrom, Bool.and_eq_true, decide_eq_true_eq] at h
    simp only [Memory.write]
    split
    · refine Memory.risingFrom_cons v hlo ?_
      simp only [Memory.risingFrom, Bool.and_eq_true, decide_eq_true_eq]
      exact ⟨⟨by omega, h.1.2⟩, h.2⟩
    · split <;> rename_i hne
      · subst hne
        exact Memory.risingFrom_cons v hlo h.2
      · simp only [Memory.risingFrom, Bool.and_eq_true, decide_eq_true_eq]
        exact ⟨h.1, ih (by omega) h.2⟩

theorem Memory.all_cons (f : Nat × Word → Bool) (a : Nat) (v : Word) (m : Memory) (hf : f (a, v) = true)
    (hm : m.all f = true) : (Memory.cons a v m).all f = true := by
  unfold Memory.cons
  split <;> simp_all

theorem Memory.all_write (f : Nat × Word → Bool) (a : Nat) (v : Word) (m : Memory) (hf : f (a, v) = true)
    (hm : m.all f = true) : (Memory.write a v m).all f = true := by
  induction m with
  | nil => exact Memory.all_cons f a v [] hf rfl
  | cons c rest ih =>
    have hr : rest.all f = true := by simp_all
    simp only [Memory.write]
    split
    · exact Memory.all_cons f a v _ hf hm
    · split
      · exact Memory.all_cons f a v _ hf hr
      · simp_all

theorem Memory.risingFrom_maskCells (w : WordLength) {lo : Nat} {m : Memory} (h : Memory.risingFrom lo m = true) :
    Memory.risingFrom lo (m.maskCells w) = true := by
  induction m generalizing lo with
  | nil => rfl
  | cons c rest ih =>
    simp only [Memory.risingFrom, Bool.and_eq_true, decide_eq_true_eq] at h
    exact Memory.risingFrom_cons _ h.1.1 (ih h.2)

theorem Memory.all_maskCells (w : WordLength) (f : Nat × Word → Bool) (m : Memory)
    (h : ∀ c ∈ m, f (c.1, mask w c.2.toNat) = true) : (m.maskCells w).all f = true := by
  induction m with
  | nil => rfl
  | cons c rest ih =>
    exact Memory.all_cons f _ _ _ (h c (by simp)) (ih fun d hd => h d (by simp [hd]))

theorem Memory.read_maskCells (w : WordLength) {lo : Nat} {m : Memory} (h : Memory.risingFrom lo m = true) (a : Nat) :
    (m.maskCells w).read a = mask w (m.read a).toNat := by
  induction m generalizing lo with
  | nil => simp [Memory.maskCells, Memory.read]
  | cons c rest ih =>
    simp only [Memory.risingFrom, Bool.and_eq_true, decide_eq_true_eq] at h
    rw [Memory.maskCells, Memory.read_cons _ _ _ _ (Memory.read_below (Memory.risingFrom_maskCells w h.2) (by omega)),
      ih h.2, Memory.read]
    split
    · rw [if_pos (by omega)]
    · rw [if_neg (by omega)]

/-! ## `wf` and `fits` -/

theorem Memory.wf_nil : Memory.wf [] = true := rfl

theorem Memory.risingFrom_of_wf {m : Memory} (h : m.wf = true) : Memory.risingFrom 0 m = true := by
  simp only [Memory.wf, Bool.and_eq_true] at h
  exact h.1

theorem Memory.wf_write {m : Memory} (h : m.wf = true) {a : Nat} (ha : a < memorySize) (v : Word) :
    (Memory.write a v m).wf = true := by
  simp only [Memory.wf, Bool.and_eq_true] at h ⊢
  exact ⟨Memory.risingFrom_write v (Nat.zero_le a) h.1, Memory.all_write _ a v m (by simpa using ha) h.2⟩

theorem Memory.wf_maskCells {m : Memory} (h : m.wf = true) (w : WordLength) : (m.maskCells w).wf = true := by
  simp only [Memory.wf, Bool.and_eq_true] at h ⊢
  refine ⟨Memory.risingFrom_maskCells w h.1, Memory.all_maskCells w _ m fun c hc => ?_⟩
  simpa using List.all_eq_true.mp h.2 c hc

theorem Memory.fits_write {w : WordLength} {m : Memory} (h : m.fits w = true) (a : Nat) {v : Word}
    (hv : v.toNat < w.modulus) : (Memory.write a v m).fits w = true :=
  Memory.all_write _ a v m (by simpa using hv) h

theorem Memory.fits_maskCells (w : WordLength) (m : Memory) : (m.maskCells w).fits w = true :=
  Memory.all_maskCells w _ m fun c _ => by simpa using mask_lt w _

theorem Memory.read_lt {w : WordLength} {m : Memory} (h : m.fits w = true) (a : Nat) :
    (m.read a).toNat < w.modulus := by
  induction m with
  | nil =>
    rw [Memory.read]
    cases w <;> decide
  | cons c rest ih =>
    simp only [Memory.fits, List.all_cons, Bool.and_eq_true, decide_eq_true_eq] at h
    rw [Memory.read]
    split
    · exact h.1
    · exact ih h.2

/-! ## The image -/

theorem Memory.risingFrom_writeImage (w : WordLength) (es : List Entry) (i : Nat) {m : Memory}
    (h : Memory.risingFrom 0 m = true) : Memory.risingFrom 0 (Memory.writeImage w i es m) = true := by
  induction es generalizing i m with
  | nil => exact h
  | cons e es ih => exact ih _ (Memory.risingFrom_write _ (Nat.zero_le i) h)

/-- A cell after the image of `es` is written from `i` on: its entry's image word inside, as before outside
(30_encoding.md R89). -/
theorem Memory.read_writeImage (w : WordLength) (es : List Entry) (i : Nat) {m : Memory}
    (h : Memory.risingFrom 0 m = true) (a : Nat) :
    (Memory.writeImage w i es m).read a =
      if i ≤ a then ((es[a - i]?).map (encodeImage w)).getD (m.read a) else m.read a := by
  induction es generalizing i m with
  | nil => simp [Memory.writeImage]
  | cons e es ih =>
    have hw := Memory.risingFrom_write (a := i) (encodeImage w e) (Nat.zero_le i) h
    rw [Memory.writeImage, ih (i + 1) hw, Memory.read_write h]
    by_cases hlt : a < i
    · rw [if_neg (by omega), if_neg (by omega), if_neg (by omega)]
    · by_cases heq : a = i
      · rw [heq, if_neg (show ¬i + 1 ≤ i by omega)]
        simp
      · simp only [if_neg heq, if_pos (show i + 1 ≤ a by omega), if_pos (show i ≤ a by omega)]
        obtain ⟨k, rfl⟩ : ∃ k, a = i + 1 + k := ⟨a - (i + 1), by omega⟩
        rw [show i + 1 + k - (i + 1) = k by omega, show i + 1 + k - i = k + 1 by omega]
        simp

theorem Memory.wf_writeImage (w : WordLength) (es : List Entry) (i : Nat) {m : Memory} (h : m.wf = true)
    (hi : i + es.length ≤ memorySize) : (Memory.writeImage w i es m).wf = true := by
  induction es generalizing i m with
  | nil => exact h
  | cons e es ih =>
    simp only [List.length_cons] at hi
    exact ih (i + 1) (Memory.wf_write h (by omega) _) (by omega)

end Sys2Proof.Machine
end

