-- ==== Sys2Proof/Laws/State.lean ====
section
/-! SUPPORT. One lemma per field of the state and per shared update, so that no proof unfolds a record update. -/

namespace Sys2Proof.Machine

section
variable (s : State) (r q : RegName) (v : Word) (n : Int) (p : Phase) (a : Nat) (w : WordLength) (b : Bool) (tag : BitVec 4)
  (m : Memory)

/-! ## `putReg` and `setReg` -/

@[simp] theorem State.IR_putReg : (s.putReg r v).IR = s.IR := by cases r <;> rfl
@[simp] theorem State.SF_putReg : (s.putReg r v).SF = s.SF := by cases r <;> rfl
@[simp] theorem State.OF_putReg : (s.putReg r v).OF = s.OF := by cases r <;> rfl
@[simp] theorem State.halted_putReg : (s.putReg r v).halted = s.halted := by cases r <;> rfl
@[simp] theorem State.cycle_putReg : (s.putReg r v).cycle = s.cycle := by cases r <;> rfl
@[simp] theorem State.bus_putReg : (s.putReg r v).bus = s.bus := by cases r <;> rfl
@[simp] theorem State.phase_putReg : (s.putReg r v).phase = s.phase := by cases r <;> rfl
@[simp] theorem State.mem_putReg : (s.putReg r v).mem = s.mem := by cases r <;> rfl
@[simp] theorem State.prog_putReg : (s.putReg r v).prog = s.prog := by cases r <;> rfl
@[simp] theorem State.wordLength_putReg : (s.putReg r v).wordLength = s.wordLength := by cases r <;> rfl
@[simp] theorem State.displayBase_putReg : (s.putReg r v).displayBase = s.displayBase := by cases r <;> rfl
@[simp] theorem State.draws_putReg : (s.putReg r v).draws = s.draws := by cases r <;> rfl
@[simp] theorem State.A_putReg : (s.putReg r v).A = if r = .A then v else s.A := by cases r <;> rfl
@[simp] theorem State.B_putReg : (s.putReg r v).B = if r = .B then v else s.B := by cases r <;> rfl
@[simp] theorem State.DR_putReg : (s.putReg r v).DR = if r = .DR then v else s.DR := by cases r <;> rfl
@[simp] theorem State.AR_putReg : (s.putReg r v).AR = if r = .AR then v else s.AR := by cases r <;> rfl
@[simp] theorem State.PC_putReg : (s.putReg r v).PC = if r = .PC then v else s.PC := by cases r <;> rfl
@[simp] theorem State.SP_putReg : (s.putReg r v).SP = if r = .SP then v else s.SP := by cases r <;> rfl
@[simp] theorem State.reg_putReg : (s.putReg r v).reg q = if r = q then v else s.reg q := by
  cases r <;> cases q <;> rfl

@[simp] theorem State.IR_setReg : (s.setReg r n).IR = s.IR := s.IR_putReg r _
@[simp] theorem State.SF_setReg : (s.setReg r n).SF = s.SF := s.SF_putReg r _
@[simp] theorem State.OF_setReg : (s.setReg r n).OF = s.OF := s.OF_putReg r _
@[simp] theorem State.halted_setReg : (s.setReg r n).halted = s.halted := s.halted_putReg r _
@[simp] theorem State.cycle_setReg : (s.setReg r n).cycle = s.cycle := s.cycle_putReg r _
@[simp] theorem State.bus_setReg : (s.setReg r n).bus = s.bus := s.bus_putReg r _
@[simp] theorem State.phase_setReg : (s.setReg r n).phase = s.phase := s.phase_putReg r _
@[simp] theorem State.mem_setReg : (s.setReg r n).mem = s.mem := s.mem_putReg r _
@[simp] theorem State.prog_setReg : (s.setReg r n).prog = s.prog := s.prog_putReg r _
@[simp] theorem State.wordLength_setReg : (s.setReg r n).wordLength = s.wordLength := s.wordLength_putReg r _
@[simp] theorem State.displayBase_setReg : (s.setReg r n).displayBase = s.displayBase := s.displayBase_putReg r _
@[simp] theorem State.draws_setReg : (s.setReg r n).draws = s.draws := s.draws_putReg r _
@[simp] theorem State.A_setReg : (s.setReg r n).A = if r = .A then mask s.wordLength n else s.A :=
  s.A_putReg r _
@[simp] theorem State.B_setReg : (s.setReg r n).B = if r = .B then mask s.wordLength n else s.B :=
  s.B_putReg r _
@[simp] theorem State.DR_setReg : (s.setReg r n).DR = if r = .DR then mask s.wordLength n else s.DR :=
  s.DR_putReg r _
@[simp] theorem State.AR_setReg : (s.setReg r n).AR = if r = .AR then mask s.wordLength n else s.AR :=
  s.AR_putReg r _
@[simp] theorem State.PC_setReg : (s.setReg r n).PC = if r = .PC then mask s.wordLength n else s.PC :=
  s.PC_putReg r _
@[simp] theorem State.SP_setReg : (s.setReg r n).SP = if r = .SP then mask s.wordLength n else s.SP :=
  s.SP_putReg r _
@[simp] theorem State.reg_setReg : (s.setReg r n).reg q = if r = q then mask s.wordLength n else s.reg q :=
  s.reg_putReg r q _


/-! ## `setIR` -/

@[simp] theorem State.A_setIR : (s.setIR tag).A = s.A := rfl
@[simp] theorem State.B_setIR : (s.setIR tag).B = s.B := rfl
@[simp] theorem State.DR_setIR : (s.setIR tag).DR = s.DR := rfl
@[simp] theorem State.AR_setIR : (s.setIR tag).AR = s.AR := rfl
@[simp] theorem State.PC_setIR : (s.setIR tag).PC = s.PC := rfl
@[simp] theorem State.SP_setIR : (s.setIR tag).SP = s.SP := rfl
@[simp] theorem State.IR_setIR : (s.setIR tag).IR = tag := rfl
@[simp] theorem State.SF_setIR : (s.setIR tag).SF = s.SF := rfl
@[simp] theorem State.OF_setIR : (s.setIR tag).OF = s.OF := rfl
@[simp] theorem State.halted_setIR : (s.setIR tag).halted = s.halted := rfl
@[simp] theorem State.cycle_setIR : (s.setIR tag).cycle = s.cycle := rfl
@[simp] theorem State.bus_setIR : (s.setIR tag).bus = s.bus := rfl
@[simp] theorem State.phase_setIR : (s.setIR tag).phase = s.phase := rfl
@[simp] theorem State.mem_setIR : (s.setIR tag).mem = s.mem := rfl
@[simp] theorem State.prog_setIR : (s.setIR tag).prog = s.prog := rfl
@[simp] theorem State.wordLength_setIR : (s.setIR tag).wordLength = s.wordLength := rfl
@[simp] theorem State.displayBase_setIR : (s.setIR tag).displayBase = s.displayBase := rfl
@[simp] theorem State.draws_setIR : (s.setIR tag).draws = s.draws := rfl
@[simp] theorem State.reg_setIR : (s.setIR tag).reg q = s.reg q := by cases q <;> rfl
@[simp] theorem State.gpr_setIR (g : Reg) : (s.setIR tag).gpr g = s.gpr g := by cases g <;> rfl

/-! ## `setMem` -/

@[simp] theorem State.A_setMem : (s.setMem m).A = s.A := rfl
@[simp] theorem State.B_setMem : (s.setMem m).B = s.B := rfl
@[simp] theorem State.DR_setMem : (s.setMem m).DR = s.DR := rfl
@[simp] theorem State.AR_setMem : (s.setMem m).AR = s.AR := rfl
@[simp] theorem State.PC_setMem : (s.setMem m).PC = s.PC := rfl
@[simp] theorem State.SP_setMem : (s.setMem m).SP = s.SP := rfl
@[simp] theorem State.IR_setMem : (s.setMem m).IR = s.IR := rfl
@[simp] theorem State.SF_setMem : (s.setMem m).SF = s.SF := rfl
@[simp] theorem State.OF_setMem : (s.setMem m).OF = s.OF := rfl
@[simp] theorem State.halted_setMem : (s.setMem m).halted = s.halted := rfl
@[simp] theorem State.cycle_setMem : (s.setMem m).cycle = s.cycle := rfl
@[simp] theorem State.bus_setMem : (s.setMem m).bus = s.bus := rfl
@[simp] theorem State.phase_setMem : (s.setMem m).phase = s.phase := rfl
@[simp] theorem State.mem_setMem : (s.setMem m).mem = m := rfl
@[simp] theorem State.prog_setMem : (s.setMem m).prog = s.prog := rfl
@[simp] theorem State.wordLength_setMem : (s.setMem m).wordLength = s.wordLength := rfl
@[simp] theorem State.displayBase_setMem : (s.setMem m).displayBase = s.displayBase := rfl
@[simp] theorem State.draws_setMem : (s.setMem m).draws = s.draws := rfl
@[simp] theorem State.reg_setMem : (s.setMem m).reg q = s.reg q := by cases q <;> rfl
@[simp] theorem State.gpr_setMem (g : Reg) : (s.setMem m).gpr g = s.gpr g := by cases g <;> rfl

/-! ## `recordAccess` -/

@[simp] theorem State.A_recordAccess : (s.recordAccess p a v).A = s.A := rfl
@[simp] theorem State.B_recordAccess : (s.recordAccess p a v).B = s.B := rfl
@[simp] theorem State.DR_recordAccess : (s.recordAccess p a v).DR = s.DR := rfl
@[simp] theorem State.AR_recordAccess : (s.recordAccess p a v).AR = s.AR := rfl
@[simp] theorem State.PC_recordAccess : (s.recordAccess p a v).PC = s.PC := rfl
@[simp] theorem State.SP_recordAccess : (s.recordAccess p a v).SP = s.SP := rfl
@[simp] theorem State.IR_recordAccess : (s.recordAccess p a v).IR = s.IR := rfl
@[simp] theorem State.SF_recordAccess : (s.recordAccess p a v).SF = s.SF := rfl
@[simp] theorem State.OF_recordAccess : (s.recordAccess p a v).OF = s.OF := rfl
@[simp] theorem State.halted_recordAccess : (s.recordAccess p a v).halted = s.halted := rfl
@[simp] theorem State.cycle_recordAccess : (s.recordAccess p a v).cycle = s.cycle := rfl
@[simp] theorem State.bus_recordAccess : (s.recordAccess p a v).bus = accessTrace a v s.draws := rfl
@[simp] theorem State.phase_recordAccess : (s.recordAccess p a v).phase = p := rfl
@[simp] theorem State.mem_recordAccess : (s.recordAccess p a v).mem = s.mem := rfl
@[simp] theorem State.prog_recordAccess : (s.recordAccess p a v).prog = s.prog := rfl
@[simp] theorem State.wordLength_recordAccess : (s.recordAccess p a v).wordLength = s.wordLength := rfl
@[simp] theorem State.displayBase_recordAccess : (s.recordAccess p a v).displayBase = s.displayBase := rfl
@[simp] theorem State.draws_recordAccess : (s.recordAccess p a v).draws = s.draws + 1 := rfl
@[simp] theorem State.reg_recordAccess : (s.recordAccess p a v).reg q = s.reg q := by cases q <;> rfl
@[simp] theorem State.gpr_recordAccess (g : Reg) : (s.recordAccess p a v).gpr g = s.gpr g := by cases g <;> rfl

/-! ## `recordFree` -/

@[simp] theorem State.A_recordFree : (s.recordFree p).A = s.A := rfl
@[simp] theorem State.B_recordFree : (s.recordFree p).B = s.B := rfl
@[simp] theorem State.DR_recordFree : (s.recordFree p).DR = s.DR := rfl
@[simp] theorem State.AR_recordFree : (s.recordFree p).AR = s.AR := rfl
@[simp] theorem State.PC_recordFree : (s.recordFree p).PC = s.PC := rfl
@[simp] theorem State.SP_recordFree : (s.recordFree p).SP = s.SP := rfl
@[simp] theorem State.IR_recordFree : (s.recordFree p).IR = s.IR := rfl
@[simp] theorem State.SF_recordFree : (s.recordFree p).SF = s.SF := rfl
@[simp] theorem State.OF_recordFree : (s.recordFree p).OF = s.OF := rfl
@[simp] theorem State.halted_recordFree : (s.recordFree p).halted = s.halted := rfl
@[simp] theorem State.cycle_recordFree : (s.recordFree p).cycle = s.cycle := rfl
@[simp] theorem State.bus_recordFree : (s.recordFree p).bus = freeTrace s.draws := rfl
@[simp] theorem State.phase_recordFree : (s.recordFree p).phase = p := rfl
@[simp] theorem State.mem_recordFree : (s.recordFree p).mem = s.mem := rfl
@[simp] theorem State.prog_recordFree : (s.recordFree p).prog = s.prog := rfl
@[simp] theorem State.wordLength_recordFree : (s.recordFree p).wordLength = s.wordLength := rfl
@[simp] theorem State.displayBase_recordFree : (s.recordFree p).displayBase = s.displayBase := rfl
@[simp] theorem State.draws_recordFree : (s.recordFree p).draws = s.draws + 1 := rfl
@[simp] theorem State.reg_recordFree : (s.recordFree p).reg q = s.reg q := by cases q <;> rfl
@[simp] theorem State.gpr_recordFree (g : Reg) : (s.recordFree p).gpr g = s.gpr g := by cases g <;> rfl

/-! ## `updateFlags` -/

@[simp] theorem State.A_updateFlags : (s.updateFlags v b).A = s.A := rfl
@[simp] theorem State.B_updateFlags : (s.updateFlags v b).B = s.B := rfl
@[simp] theorem State.DR_updateFlags : (s.updateFlags v b).DR = s.DR := rfl
@[simp] theorem State.AR_updateFlags : (s.updateFlags v b).AR = s.AR := rfl
@[simp] theorem State.PC_updateFlags : (s.updateFlags v b).PC = s.PC := rfl
@[simp] theorem State.SP_updateFlags : (s.updateFlags v b).SP = s.SP := rfl
@[simp] theorem State.IR_updateFlags : (s.updateFlags v b).IR = s.IR := rfl
@[simp] theorem State.SF_updateFlags : (s.updateFlags v b).SF = signBit s.wordLength v := rfl
@[simp] theorem State.OF_updateFlags : (s.updateFlags v b).OF = b := rfl
@[simp] theorem State.halted_updateFlags : (s.updateFlags v b).halted = s.halted := rfl
@[simp] theorem State.cycle_updateFlags : (s.updateFlags v b).cycle = s.cycle := rfl
@[simp] theorem State.bus_updateFlags : (s.updateFlags v b).bus = s.bus := rfl
@[simp] theorem State.phase_updateFlags : (s.updateFlags v b).phase = s.phase := rfl
@[simp] theorem State.mem_updateFlags : (s.updateFlags v b).mem = s.mem := rfl
@[simp] theorem State.prog_updateFlags : (s.updateFlags v b).prog = s.prog := rfl
@[simp] theorem State.wordLength_updateFlags : (s.updateFlags v b).wordLength = s.wordLength := rfl
@[simp] theorem State.displayBase_updateFlags : (s.updateFlags v b).displayBase = s.displayBase := rfl
@[simp] theorem State.draws_updateFlags : (s.updateFlags v b).draws = s.draws := rfl
@[simp] theorem State.reg_updateFlags : (s.updateFlags v b).reg q = s.reg q := by cases q <;> rfl
@[simp] theorem State.gpr_updateFlags (g : Reg) : (s.updateFlags v b).gpr g = s.gpr g := by cases g <;> rfl

/-! ## `halt` -/

@[simp] theorem State.A_halt : (s.halt).A = s.A := rfl
@[simp] theorem State.B_halt : (s.halt).B = s.B := rfl
@[simp] theorem State.DR_halt : (s.halt).DR = s.DR := rfl
@[simp] theorem State.AR_halt : (s.halt).AR = s.AR := rfl
@[simp] theorem State.PC_halt : (s.halt).PC = s.PC := rfl
@[simp] theorem State.SP_halt : (s.halt).SP = s.SP := rfl
@[simp] theorem State.IR_halt : (s.halt).IR = s.IR := rfl
@[simp] theorem State.SF_halt : (s.halt).SF = s.SF := rfl
@[simp] theorem State.OF_halt : (s.halt).OF = s.OF := rfl
@[simp] theorem State.halted_halt : (s.halt).halted = true := rfl
@[simp] theorem State.cycle_halt : (s.halt).cycle = s.cycle := rfl
@[simp] theorem State.bus_halt : (s.halt).bus = s.bus := rfl
@[simp] theorem State.phase_halt : (s.halt).phase = .halt := rfl
@[simp] theorem State.mem_halt : (s.halt).mem = s.mem := rfl
@[simp] theorem State.prog_halt : (s.halt).prog = s.prog := rfl
@[simp] theorem State.wordLength_halt : (s.halt).wordLength = s.wordLength := rfl
@[simp] theorem State.displayBase_halt : (s.halt).displayBase = s.displayBase := rfl
@[simp] theorem State.draws_halt : (s.halt).draws = s.draws := rfl
@[simp] theorem State.reg_halt : (s.halt).reg q = s.reg q := by cases q <;> rfl
@[simp] theorem State.gpr_halt (g : Reg) : (s.halt).gpr g = s.gpr g := by cases g <;> rfl

/-! ## `maskRegs` -/

@[simp] theorem State.A_maskRegs : (s.maskRegs w).A = mask w s.A.toNat := rfl
@[simp] theorem State.B_maskRegs : (s.maskRegs w).B = mask w s.B.toNat := rfl
@[simp] theorem State.DR_maskRegs : (s.maskRegs w).DR = mask w s.DR.toNat := rfl
@[simp] theorem State.AR_maskRegs : (s.maskRegs w).AR = mask w s.AR.toNat := rfl
@[simp] theorem State.PC_maskRegs : (s.maskRegs w).PC = mask w s.PC.toNat := rfl
@[simp] theorem State.SP_maskRegs : (s.maskRegs w).SP = mask w s.SP.toNat := rfl
@[simp] theorem State.IR_maskRegs : (s.maskRegs w).IR = s.IR := rfl
@[simp] theorem State.SF_maskRegs : (s.maskRegs w).SF = s.SF := rfl
@[simp] theorem State.OF_maskRegs : (s.maskRegs w).OF = s.OF := rfl
@[simp] theorem State.halted_maskRegs : (s.maskRegs w).halted = s.halted := rfl
@[simp] theorem State.cycle_maskRegs : (s.maskRegs w).cycle = s.cycle := rfl
@[simp] theorem State.bus_maskRegs : (s.maskRegs w).bus = s.bus := rfl
@[simp] theorem State.phase_maskRegs : (s.maskRegs w).phase = s.phase := rfl
@[simp] theorem State.mem_maskRegs : (s.maskRegs w).mem = s.mem := rfl
@[simp] theorem State.prog_maskRegs : (s.maskRegs w).prog = s.prog := rfl
@[simp] theorem State.wordLength_maskRegs : (s.maskRegs w).wordLength = s.wordLength := rfl
@[simp] theorem State.displayBase_maskRegs : (s.maskRegs w).displayBase = s.displayBase := rfl
@[simp] theorem State.draws_maskRegs : (s.maskRegs w).draws = s.draws := rfl

/-! ## `retire` -/

@[simp] theorem retire_A : (retire s).A = mask s.wordLength s.A.toNat := rfl
@[simp] theorem retire_B : (retire s).B = mask s.wordLength s.B.toNat := rfl
@[simp] theorem retire_DR : (retire s).DR = mask s.wordLength s.DR.toNat := rfl
@[simp] theorem retire_AR : (retire s).AR = mask s.wordLength s.AR.toNat := rfl
@[simp] theorem retire_PC : (retire s).PC = mask s.wordLength s.PC.toNat := rfl
@[simp] theorem retire_SP : (retire s).SP = mask s.wordLength s.SP.toNat := rfl
@[simp] theorem retire_IR : (retire s).IR = s.IR := rfl
@[simp] theorem retire_SF : (retire s).SF = s.SF := rfl
@[simp] theorem retire_OF : (retire s).OF = s.OF := rfl
@[simp] theorem retire_halted : (retire s).halted = s.halted := rfl
@[simp] theorem retire_cycle : (retire s).cycle = s.cycle + 1 := rfl
@[simp] theorem retire_bus : (retire s).bus = s.bus := rfl
@[simp] theorem retire_phase : (retire s).phase = s.phase := rfl
@[simp] theorem retire_mem : (retire s).mem = s.mem := rfl
@[simp] theorem retire_prog : (retire s).prog = s.prog := rfl
@[simp] theorem retire_wordLength : (retire s).wordLength = s.wordLength := rfl
@[simp] theorem retire_displayBase : (retire s).displayBase = s.displayBase := rfl
@[simp] theorem retire_draws : (retire s).draws = s.draws := rfl

/-! ## `advance` -/

@[simp] theorem State.A_advance : s.advance.A = s.A := rfl
@[simp] theorem State.B_advance : s.advance.B = s.B := rfl
@[simp] theorem State.DR_advance : s.advance.DR = s.DR := rfl
@[simp] theorem State.AR_advance : s.advance.AR = s.AR := rfl
@[simp] theorem State.PC_advance : s.advance.PC = mask s.wordLength ((s.PC.toNat : Int) + 1) := rfl
@[simp] theorem State.SP_advance : s.advance.SP = s.SP := rfl
@[simp] theorem State.IR_advance : s.advance.IR = s.IR := rfl
@[simp] theorem State.SF_advance : s.advance.SF = s.SF := rfl
@[simp] theorem State.OF_advance : s.advance.OF = s.OF := rfl
@[simp] theorem State.halted_advance : s.advance.halted = s.halted := rfl
@[simp] theorem State.cycle_advance : s.advance.cycle = s.cycle := rfl
@[simp] theorem State.bus_advance : s.advance.bus = s.bus := rfl
@[simp] theorem State.phase_advance : s.advance.phase = s.phase := rfl
@[simp] theorem State.mem_advance : s.advance.mem = s.mem := rfl
@[simp] theorem State.prog_advance : s.advance.prog = s.prog := rfl
@[simp] theorem State.wordLength_advance : s.advance.wordLength = s.wordLength := rfl
@[simp] theorem State.displayBase_advance : s.advance.displayBase = s.displayBase := rfl
@[simp] theorem State.draws_advance : s.advance.draws = s.draws := rfl
@[simp] theorem State.gpr_advance (g : Reg) : s.advance.gpr g = s.gpr g := by cases g <;> rfl

/-! ## `cpuReset`, `freshImage` -/

@[simp] theorem State.A_cpuReset : s.cpuReset.A = 0 := rfl
@[simp] theorem State.B_cpuReset : s.cpuReset.B = 0 := rfl
@[simp] theorem State.DR_cpuReset : s.cpuReset.DR = 0 := rfl
@[simp] theorem State.AR_cpuReset : s.cpuReset.AR = 0 := rfl
@[simp] theorem State.PC_cpuReset : s.cpuReset.PC = 0 := rfl
@[simp] theorem State.SP_cpuReset : s.cpuReset.SP = 63 := rfl
@[simp] theorem State.IR_cpuReset : s.cpuReset.IR = 0 := rfl
@[simp] theorem State.SF_cpuReset : s.cpuReset.SF = false := rfl
@[simp] theorem State.OF_cpuReset : s.cpuReset.OF = false := rfl
@[simp] theorem State.halted_cpuReset : s.cpuReset.halted = false := rfl
@[simp] theorem State.cycle_cpuReset : s.cpuReset.cycle = 0 := rfl
@[simp] theorem State.bus_cpuReset : s.cpuReset.bus = .cleared := rfl
@[simp] theorem State.phase_cpuReset : s.cpuReset.phase = s.phase := rfl
@[simp] theorem State.mem_cpuReset : s.cpuReset.mem = s.mem := rfl
@[simp] theorem State.prog_cpuReset : s.cpuReset.prog = s.prog := rfl
@[simp] theorem State.wordLength_cpuReset : s.cpuReset.wordLength = s.wordLength := rfl
@[simp] theorem State.displayBase_cpuReset : s.cpuReset.displayBase = s.displayBase := rfl
@[simp] theorem State.draws_cpuReset : s.cpuReset.draws = s.draws := rfl
@[simp] theorem State.A_freshImage : s.freshImage.A = s.A := rfl
@[simp] theorem State.B_freshImage : s.freshImage.B = s.B := rfl
@[simp] theorem State.DR_freshImage : s.freshImage.DR = s.DR := rfl
@[simp] theorem State.AR_freshImage : s.freshImage.AR = s.AR := rfl
@[simp] theorem State.PC_freshImage : s.freshImage.PC = s.PC := rfl
@[simp] theorem State.SP_freshImage : s.freshImage.SP = s.SP := rfl
@[simp] theorem State.IR_freshImage : s.freshImage.IR = s.IR := rfl
@[simp] theorem State.SF_freshImage : s.freshImage.SF = s.SF := rfl
@[simp] theorem State.OF_freshImage : s.freshImage.OF = s.OF := rfl
@[simp] theorem State.halted_freshImage : s.freshImage.halted = s.halted := rfl
@[simp] theorem State.cycle_freshImage : s.freshImage.cycle = s.cycle := rfl
@[simp] theorem State.bus_freshImage : s.freshImage.bus = s.bus := rfl
@[simp] theorem State.phase_freshImage : s.freshImage.phase = s.phase := rfl
@[simp] theorem State.mem_freshImage :
    s.freshImage.mem = Memory.writeImage s.wordLength 0 s.prog [] := rfl
@[simp] theorem State.prog_freshImage : s.freshImage.prog = s.prog := rfl
@[simp] theorem State.wordLength_freshImage : s.freshImage.wordLength = s.wordLength := rfl
@[simp] theorem State.displayBase_freshImage : s.freshImage.displayBase = s.displayBase := rfl
@[simp] theorem State.draws_freshImage : s.freshImage.draws = s.draws := rfl

end

/-! ## General registers -/

@[simp] theorem regName_ne_DR (g : Reg) : regName g ≠ .DR := by cases g <;> decide
@[simp] theorem regName_ne_AR (g : Reg) : regName g ≠ .AR := by cases g <;> decide
@[simp] theorem regName_ne_PC (g : Reg) : regName g ≠ .PC := by cases g <;> decide
@[simp] theorem regName_ne_SP (g : Reg) : regName g ≠ .SP := by cases g <;> decide
@[simp] theorem DR_ne_regName (g : Reg) : .DR ≠ regName g := by cases g <;> decide
@[simp] theorem AR_ne_regName (g : Reg) : .AR ≠ regName g := by cases g <;> decide
@[simp] theorem PC_ne_regName (g : Reg) : .PC ≠ regName g := by cases g <;> decide
@[simp] theorem SP_ne_regName (g : Reg) : .SP ≠ regName g := by cases g <;> decide
@[simp] theorem regName_inj (g h : Reg) : regName g = regName h ↔ g = h := by cases g <;> cases h <;> decide

theorem State.gpr_putReg (s : State) (r : RegName) (v : Word) (g : Reg) :
    (s.putReg r v).gpr g = if r = regName g then v else s.gpr g := s.reg_putReg r (regName g) v

@[simp] theorem State.gpr_setReg (s : State) (r : RegName) (n : Int) (g : Reg) :
    (s.setReg r n).gpr g = if r = regName g then mask s.wordLength n else s.gpr g := s.reg_setReg r (regName g) n

/-! ## `writeResult` -/

@[simp] theorem State.DR_writeResult (s : State) (g : Reg) (v : Word) :
    (s.writeResult g v).DR = mask s.wordLength v.toNat := by simp [State.writeResult]
@[simp] theorem State.AR_writeResult (s : State) (g : Reg) (v : Word) :
    (s.writeResult g v).AR = s.AR := by simp [State.writeResult]
@[simp] theorem State.PC_writeResult (s : State) (g : Reg) (v : Word) :
    (s.writeResult g v).PC = s.PC := by simp [State.writeResult]
@[simp] theorem State.SP_writeResult (s : State) (g : Reg) (v : Word) :
    (s.writeResult g v).SP = s.SP := by simp [State.writeResult]
@[simp] theorem State.IR_writeResult (s : State) (g : Reg) (v : Word) :
    (s.writeResult g v).IR = s.IR := by simp [State.writeResult]
@[simp] theorem State.SF_writeResult (s : State) (g : Reg) (v : Word) :
    (s.writeResult g v).SF = s.SF := by simp [State.writeResult]
@[simp] theorem State.OF_writeResult (s : State) (g : Reg) (v : Word) :
    (s.writeResult g v).OF = s.OF := by simp [State.writeResult]
@[simp] theorem State.halted_writeResult (s : State) (g : Reg) (v : Word) :
    (s.writeResult g v).halted = s.halted := by simp [State.writeResult]
@[simp] theorem State.cycle_writeResult (s : State) (g : Reg) (v : Word) :
    (s.writeResult g v).cycle = s.cycle := by simp [State.writeResult]
@[simp] theorem State.bus_writeResult (s : State) (g : Reg) (v : Word) :
    (s.writeResult g v).bus = s.bus := by simp [State.writeResult]
@[simp] theorem State.phase_writeResult (s : State) (g : Reg) (v : Word) :
    (s.writeResult g v).phase = s.phase := by simp [State.writeResult]
@[simp] theorem State.mem_writeResult (s : State) (g : Reg) (v : Word) :
    (s.writeResult g v).mem = s.mem := by simp [State.writeResult]
@[simp] theorem State.prog_writeResult (s : State) (g : Reg) (v : Word) :
    (s.writeResult g v).prog = s.prog := by simp [State.writeResult]
@[simp] theorem State.wordLength_writeResult (s : State) (g : Reg) (v : Word) :
    (s.writeResult g v).wordLength = s.wordLength := by simp [State.writeResult]
@[simp] theorem State.displayBase_writeResult (s : State) (g : Reg) (v : Word) :
    (s.writeResult g v).displayBase = s.displayBase := by simp [State.writeResult]
@[simp] theorem State.draws_writeResult (s : State) (g : Reg) (v : Word) :
    (s.writeResult g v).draws = s.draws := by simp [State.writeResult]
@[simp] theorem State.A_writeResult (s : State) (g : Reg) (v : Word) :
    (s.writeResult g v).A = if g = .A then mask s.wordLength v.toNat else s.A := by
  cases g <;> simp [State.writeResult, regName]
@[simp] theorem State.B_writeResult (s : State) (g : Reg) (v : Word) :
    (s.writeResult g v).B = if g = .B then mask s.wordLength v.toNat else s.B := by
  cases g <;> simp [State.writeResult, regName]
@[simp] theorem State.gpr_writeResult (s : State) (g h : Reg) (v : Word) :
    (s.writeResult g v).gpr h = if g = h then mask s.wordLength v.toNat else s.gpr h := by
  simp [State.writeResult]

end Sys2Proof.Machine
end

