-- ==== Sys2Proof/Laws/Ops.lean ====
section
/-! SUPPORT. One lemma per shared operation that says once everything it can do. -/

namespace Sys2Proof.Machine

/-! ## Memory accesses -/

theorem State.memRead_of_inRange (s : State) {a : Int} (h0 : 0 ≤ a) (h1 : a < (memorySize : Int)) :
    s.memRead a = .ok (s.mem.read a.toNat) :=
  if_pos ⟨h0, by omega⟩

theorem State.memRead_of_outOfRange (s : State) {a : Int} (h : ¬(0 ≤ a ∧ a < (memorySize : Int))) :
    s.memRead a = .error (.outOfRangeAddress a) :=
  if_neg fun hr => h ⟨hr.1, by omega⟩

theorem State.memRead_ok {s : State} {a : Int} {v : Word} (h : s.memRead a = .ok v) :
    (0 ≤ a ∧ a < (memorySize : Int)) ∧ v = s.mem.read a.toNat := by
  unfold State.memRead at h
  split at h
  · rename_i hr
    exact ⟨⟨hr.1, by omega⟩, (Except.ok.inj h).symm⟩
  · cases h

theorem State.memWrite_of_inRange (s : State) {a : Int} (v : Int) (h0 : 0 ≤ a) (h1 : a < (memorySize : Int)) :
    s.memWrite a v = .ok (s.setMem (Memory.write a.toNat (mask s.wordLength v) s.mem)) :=
  if_pos ⟨h0, by omega⟩

theorem State.memWrite_of_outOfRange (s : State) {a : Int} (v : Int) (h : ¬(0 ≤ a ∧ a < (memorySize : Int))) :
    s.memWrite a v = .error (.outOfRangeAddress a) :=
  if_neg fun hr => h ⟨hr.1, by omega⟩

theorem State.memWrite_ok {s t : State} {a v : Int} (h : s.memWrite a v = .ok t) :
    (0 ≤ a ∧ a < (memorySize : Int)) ∧ t = s.setMem (Memory.write a.toNat (mask s.wordLength v) s.mem) := by
  unfold State.memWrite at h
  split at h
  · rename_i hr
    exact ⟨⟨hr.1, by omega⟩, (Except.ok.inj h).symm⟩
  · cases h

/-! ## Fetch and decode -/

/-- What a fetch does when it succeeds (40_step_cycle.md R103). -/
theorem fetch_ok {e : Entry} {s s1 : State} (h : fetch e s = .ok s1) :
    s.PC.toNat < memorySize ∧
    s1 = State.recordAccess
      (((s.setReg .DR (s.mem.read s.PC.toNat).toNat).setReg .AR s.PC.toNat).setIR e.op)
      .fetch s.PC.toNat (s.mem.read s.PC.toNat) := by
  unfold fetch at h
  cases hv : s.memRead s.PC.toNat with
  | error f =>
    rw [hv] at h
    cases h
  | ok v =>
    obtain ⟨⟨-, hlt⟩, rfl⟩ := State.memRead_ok hv
    rw [hv] at h
    exact ⟨Int.ofNat_lt.mp hlt, (Except.ok.inj h).symm⟩

theorem fetch_of_inRange (e : Entry) {s : State} (h : s.PC.toNat < memorySize) :
    fetch e s = .ok (State.recordAccess
      (((s.setReg .DR (s.mem.read s.PC.toNat).toNat).setReg .AR s.PC.toNat).setIR e.op)
      .fetch s.PC.toNat (s.mem.read s.PC.toNat)) := by
  have hr := State.memRead_of_inRange s (a := (s.PC.toNat : Int)) (Int.natCast_nonneg _) (Int.ofNat_lt.mpr h)
  unfold fetch
  rw [hr]
  rfl

/-- The decode of an entry succeeds exactly on a valid entry, with the entry's instruction (30_encoding.md R74). -/
theorem decodeValid_eq_ok {w : WordLength} {e : Entry} {i : Instr} :
    decodeValid w e = .ok i ↔ decodeEntry e = .ok i ∧ i.wellFormed w = true := by
  unfold decodeValid Instr.wellFormed
  split
  · rename_i h
    simp [h]
  · rename_i j h
    split <;> rename_i hv
    · simp only [h, reduceCtorEq, Except.ok.injEq, false_iff, not_and]
      rintro rfl
      simp [hv]
    · simp only [h, Except.ok.injEq]
      constructor
      · rintro rfl
        simp [hv]
      · exact And.left

/-! ## Validity of operands -/

theorem addressInRange_iff (a : Int) : addressInRange a = true ↔ 0 ≤ a ∧ a < 64 := by
  simp only [addressInRange, memorySize, Bool.and_eq_true, decide_eq_true_eq]
  omega

theorem immediateInRange_iff (w : WordLength) (imm : Int) :
    immediateInRange w imm = true ↔ -(w.half : Int) ≤ imm ∧ imm ≤ (w.half : Int) - 1 := by
  simp only [immediateInRange, Bool.and_eq_true, decide_eq_true_eq]

@[simp] theorem wellFormed_ldi (w : WordLength) (r : Reg) (imm : Int) :
    (Instr.ldi r imm).wellFormed w = immediateInRange w imm := by
  simp only [Instr.wellFormed, Instr.violation]
  split <;> simp_all

@[simp] theorem wellFormed_add (w : WordLength) (d s : Reg) : (Instr.add d s).wellFormed w = true := rfl

@[simp] theorem wellFormed_store (w : WordLength) (r : Reg) (a : Int) :
    (Instr.store r a).wellFormed w = addressInRange a := by
  simp only [Instr.wellFormed, Instr.violation]
  split <;> simp_all

@[simp] theorem wellFormed_load (w : WordLength) (r : Reg) (a : Int) :
    (Instr.load r a).wellFormed w = addressInRange a := by
  simp only [Instr.wellFormed, Instr.violation]
  split <;> simp_all

@[simp] theorem wellFormed_jmp (w : WordLength) (a : Int) : (Instr.jmp a).wellFormed w = addressInRange a := by
  simp only [Instr.wellFormed, Instr.violation]
  split <;> simp_all

@[simp] theorem wellFormed_jz (w : WordLength) (r : Reg) (a : Int) :
    (Instr.jz r a).wellFormed w = addressInRange a := by
  simp only [Instr.wellFormed, Instr.violation]
  split <;> simp_all

@[simp] theorem wellFormed_hlt (w : WordLength) : Instr.hlt.wellFormed w = true := rfl

end Sys2Proof.Machine
end

