-- ==== Sys2Proof/Laws/Exec.lean ====
section
/-! SUPPORT. What each meaning answers, said once, and what every meaning leaves alone. -/

namespace Sys2Proof.Machine

/-! ## The two memory instructions -/

/-- An address inside or outside the memory: the one case split a memory instruction needs. -/
theorem address_cases (a : Int) : (0 ≤ a ∧ a < (memorySize : Int)) ∨ ¬(0 ≤ a ∧ a < (memorySize : Int)) :=
  Decidable.em _

/-- `LOAD` from an address of the memory (42_load_store.md R130). -/
theorem execLoad_of_inRange (r : Reg) {a : Int} (s : State) (h0 : 0 ≤ a) (h1 : a < (memorySize : Int)) :
    execLoad r a s = .next ((((s.setReg .AR a).setReg .DR (s.mem.read a.toNat).toNat).setReg (regName r)
      (s.mem.read a.toNat).toNat).recordAccess .execute a.toNat (s.mem.read a.toNat)).advance := by
  simp only [execLoad, effectiveAddress, State.memRead_of_inRange s h0 h1]

theorem execLoad_of_outOfRange (r : Reg) {a : Int} (s : State) (h : ¬(0 ≤ a ∧ a < (memorySize : Int))) :
    execLoad r a s = .fault (.outOfRangeAddress a) := by
  simp only [execLoad, effectiveAddress, State.memRead_of_outOfRange s h]

/-- If `LOAD` answers a next state, its address is in range and this is the state. -/
theorem execLoad_next {r : Reg} {a : Int} {s t : State} (h : exec (.load r a) s = .next t) :
    (0 ≤ a ∧ a < (memorySize : Int)) ∧
    t = ((((s.setReg .AR a).setReg .DR (s.mem.read a.toNat).toNat).setReg (regName r)
      (s.mem.read a.toNat).toNat).recordAccess .execute a.toNat (s.mem.read a.toNat)).advance := by
  rcases address_cases a with ha | ha
  · rw [exec, execLoad_of_inRange r s ha.1 ha.2] at h
    exact ⟨ha, (Host.Outcome.next.inj h).symm⟩
  · rw [exec, execLoad_of_outOfRange r s ha] at h
    cases h

theorem storeWriteback_of_inRange (r : Reg) {a : Int} (s : State) (h0 : 0 ≤ a) (h1 : a < (memorySize : Int)) :
    storeWriteback r a s = .ok (State.recordAccess
      (s.setMem (Memory.write a.toNat (mask s.wordLength s.DR.toNat) s.mem))
      .writeback a.toNat (s.gpr r)) := by
  simp only [storeWriteback, effectiveAddress, State.memWrite_of_inRange s _ h0 h1]

@[simp] theorem storeExecute_wordLength (r : Reg) (a : Int) (s : State) :
    (storeExecute r a s).wordLength = s.wordLength := by simp [storeExecute]

@[simp] theorem storeExecute_mem (r : Reg) (a : Int) (s : State) : (storeExecute r a s).mem = s.mem := by
  simp [storeExecute]

@[simp] theorem storeExecute_DR (r : Reg) (a : Int) (s : State) :
    (storeExecute r a s).DR = mask s.wordLength (s.gpr r).toNat := by simp [storeExecute]

/-- `STORE` to an address of the memory (42_load_store.md R131). -/
theorem execStore_of_inRange (r : Reg) {a : Int} (s : State) (h0 : 0 ≤ a) (h1 : a < (memorySize : Int)) :
    execStore r a s = .next (State.advance (State.recordAccess
      ((storeExecute r a s).setMem
        (Memory.write a.toNat (mask s.wordLength (storeExecute r a s).DR.toNat) s.mem))
      .writeback a.toNat ((storeExecute r a s).gpr r))) := by
  simp only [execStore, storeWriteback_of_inRange r (storeExecute r a s) h0 h1, storeExecute_wordLength,
    storeExecute_mem]

theorem execStore_of_outOfRange (r : Reg) {a : Int} (s : State) (h : ¬(0 ≤ a ∧ a < (memorySize : Int))) :
    execStore r a s = .fault (.outOfRangeAddress a) := by
  simp only [execStore, storeWriteback, effectiveAddress, State.memWrite_of_outOfRange _ _ h]

/-- If `STORE` answers a next state, its address is in range and this is the state. -/
theorem execStore_next {r : Reg} {a : Int} {s t : State} (h : exec (.store r a) s = .next t) :
    (0 ≤ a ∧ a < (memorySize : Int)) ∧
    t = State.advance (State.recordAccess
      ((storeExecute r a s).setMem
        (Memory.write a.toNat (mask s.wordLength (storeExecute r a s).DR.toNat) s.mem))
      .writeback a.toNat ((storeExecute r a s).gpr r)) := by
  rcases address_cases a with ha | ha
  · rw [exec, execStore_of_inRange r s ha.1 ha.2] at h
    exact ⟨ha, (Host.Outcome.next.inj h).symm⟩
  · rw [exec, execStore_of_outOfRange r s ha] at h
    cases h

/-- If `JZ` answers a next state, this is the state. -/
theorem execJz_next {r : Reg} {a : Int} {s t : State} (h : exec (.jz r a) s = .next t) :
    t = if s.gpr r = 0 then (s.recordFree .execute).setReg .PC a else (s.recordFree .execute).advance :=
  (Host.Outcome.next.inj h).symm

/-! ## What every meaning does to one part of the state -/

/-- No instruction writes `SP`, `IR`, `cycle`, the program, the word length or the display base (10_state.md R20:
only the fetch, the step and the host do). -/
theorem exec_keeps {i : Instr} {s t : State} (h : exec i s = .next t) : sameFixed s t := by
  unfold sameFixed
  cases i with
  | ldi r imm => cases h; simp
  | add d src => cases h; simp
  | store r a => obtain ⟨-, rfl⟩ := execStore_next h; simp [storeExecute]
  | load r a => obtain ⟨-, rfl⟩ := execLoad_next h; simp
  | jmp a => cases h; simp
  | jz r a => rw [execJz_next h]; split <;> simp
  | hlt => cases h; simp

/-- A meaning keeps memory in canonical form and of `w`-bit words. -/
theorem exec_keeps_memory {i : Instr} {s t : State} (h : exec i s = .next t) (hw : s.mem.wf = true)
    (hf : s.mem.fits s.wordLength = true) : t.mem.wf = true ∧ t.mem.fits s.wordLength = true := by
  cases i with
  | ldi r imm => cases h; simp [*]
  | add d src => cases h; simp [*]
  | store r a =>
    obtain ⟨ha, rfl⟩ := execStore_next h
    exact ⟨Memory.wf_write hw (by omega) _, Memory.fits_write hf _ (mask_lt _ _)⟩
  | load r a => obtain ⟨-, rfl⟩ := execLoad_next h; simp [*]
  | jmp a => cases h; simp [*]
  | jz r a => rw [execJz_next h]; split <;> simp [*]
  | hlt => cases h; simp [*]

/-- A cell that a meaning changes is the one `STORE` addresses. -/
theorem exec_mem {i : Instr} {s t : State} {b : Nat} (h : exec i s = .next t) (hw : s.mem.wf = true)
    (hne : t.mem.read b ≠ s.mem.read b) : ∃ r a, i = .store r a ∧ b = a.toNat := by
  cases i with
  | ldi r imm => cases h; simp at hne
  | add d src => cases h; simp at hne
  | store r a =>
    obtain ⟨-, rfl⟩ := execStore_next h
    simp only [State.mem_advance, State.mem_recordAccess, State.mem_setMem,
      Memory.read_write (Memory.risingFrom_of_wf hw)] at hne
    split at hne
    · exact ⟨r, a, rfl, ‹_›⟩
    · exact absurd rfl hne
  | load r a => obtain ⟨-, rfl⟩ := execLoad_next h; simp at hne
  | jmp a => cases h; simp at hne
  | jz r a => rw [execJz_next h] at hne; split at hne <;> simp at hne
  | hlt => cases h; simp at hne

/-- A general register that a meaning changes is the destination of `LDI`, `ADD` or `LOAD`. -/
theorem exec_gpr {i : Instr} {s t : State} {g : Reg} (h : exec i s = .next t) (hne : t.gpr g ≠ s.gpr g) :
    (∃ imm, i = .ldi g imm) ∨ (∃ src, i = .add g src) ∨ (∃ a, i = .load g a) := by
  cases i with
  | ldi r imm => cases h; by_cases hr : r = g <;> simp_all
  | add d src => cases h; by_cases hr : d = g <;> simp_all
  | store r a => obtain ⟨-, rfl⟩ := execStore_next h; simp [storeExecute] at hne
  | load r a => obtain ⟨-, rfl⟩ := execLoad_next h; by_cases hr : r = g <;> simp_all
  | jmp a => cases h; simp at hne
  | jz r a => rw [execJz_next h] at hne; split at hne <;> simp at hne
  | hlt => cases h; simp at hne

/-- A meaning that changes a flag is `ADD`'s. -/
theorem exec_flags {i : Instr} {s t : State} (h : exec i s = .next t) (hne : ¬sameFlags s t) :
    ∃ d src, i = .add d src := by
  unfold sameFlags at hne
  cases i with
  | ldi r imm => cases h; simp at hne
  | add d src => exact ⟨d, src, rfl⟩
  | store r a => obtain ⟨-, rfl⟩ := execStore_next h; simp [storeExecute] at hne
  | load r a => obtain ⟨-, rfl⟩ := execLoad_next h; simp at hne
  | jmp a => cases h; simp at hne
  | jz r a => rw [execJz_next h] at hne; split at hne <;> simp at hne
  | hlt => cases h; simp at hne

/-- The halt state after a meaning: set by `HLT`, else kept. -/
theorem exec_halted {i : Instr} {s t : State} (h : exec i s = .next t) :
    t.halted = true ↔ s.halted = true ∨ i = .hlt := by
  cases i with
  | ldi r imm => cases h; simp
  | add d src => cases h; simp
  | store r a => obtain ⟨-, rfl⟩ := execStore_next h; simp [storeExecute]
  | load r a => obtain ⟨-, rfl⟩ := execLoad_next h; simp
  | jmp a => cases h; simp
  | jz r a => rw [execJz_next h]; split <;> simp
  | hlt => cases h; simp

/-- The phase after a meaning is the table's. -/
theorem exec_phase {i : Instr} {s t : State} (h : exec i s = .next t) : t.phase = reportedPhase i := by
  cases i with
  | ldi r imm => cases h; simp [reportedPhase]
  | add d src => cases h; simp [reportedPhase]
  | store r a => obtain ⟨-, rfl⟩ := execStore_next h; simp [reportedPhase]
  | load r a => obtain ⟨-, rfl⟩ := execLoad_next h; simp [reportedPhase]
  | jmp a => cases h; simp [reportedPhase]
  | jz r a => rw [execJz_next h]; split <;> simp [reportedPhase]
  | hlt => cases h; simp [reportedPhase]

/-- The PC after the meaning of a well-formed instruction is the table's next PC. -/
theorem exec_pc {i : Instr} {s t : State} (h : exec i s = .next t) (hv : i.wellFormed s.wordLength = true)
    (hpc : s.PC.toNat < memorySize) : (t.PC.toNat : Int) = nextPC i s := by
  cases i with
  | ldi r imm =>
    cases h
    simp only [State.PC_advance, State.PC_recordFree, State.PC_writeResult, nextPC]
    exact mask_address _ (by omega) (by omega)
  | add d src =>
    cases h
    simp only [State.PC_advance, State.PC_recordFree, State.PC_updateFlags, State.PC_writeResult, nextPC]
    exact mask_address _ (by omega) (by omega)
  | store r a =>
    obtain ⟨-, rfl⟩ := execStore_next h
    simp only [State.PC_advance, State.PC_recordAccess, State.PC_setMem, State.wordLength_recordAccess,
      State.wordLength_setMem, storeExecute_wordLength, nextPC]
    simp only [storeExecute, State.PC_recordAccess, State.PC_setReg, reduceCtorEq, if_false]
    exact mask_address _ (by omega) (by omega)
  | load r a =>
    obtain ⟨-, rfl⟩ := execLoad_next h
    simp only [State.PC_advance, State.PC_recordAccess, State.PC_setReg, regName_ne_PC, reduceCtorEq, if_false, nextPC]
    exact mask_address _ (by omega) (by omega)
  | jmp a =>
    rw [wellFormed_jmp, addressInRange_iff] at hv
    have hm : (memorySize : Int) = 64 := rfl
    cases h
    simp only [State.PC_setReg, if_true, effectiveAddress, nextPC]
    exact mask_address _ (by omega) (by omega)
  | jz r a =>
    rw [wellFormed_jz, addressInRange_iff] at hv
    have hm : (memorySize : Int) = 64 := rfl
    rw [execJz_next h]
    unfold nextPC
    by_cases hr : s.gpr r = 0
    · simp only [hr, if_true, State.PC_setReg]
      exact mask_address _ hv.1 (by omega)
    · simp only [hr, if_false, State.PC_advance, State.PC_recordFree]
      exact mask_address _ (a := (s.PC.toNat : Int) + 1) (by omega) (by omega)
  | hlt => cases h; simp [nextPC]

/-- The meaning of a well-formed instruction completes. -/
theorem exec_completes {i : Instr} {s : State} (hv : i.wellFormed s.wordLength = true) : ∃ t, exec i s = .next t := by
  cases i with
  | ldi r imm => exact ⟨_, rfl⟩
  | add d src => exact ⟨_, rfl⟩
  | store r a =>
    rw [wellFormed_store, addressInRange_iff] at hv
    exact ⟨_, execStore_of_inRange r s hv.1 (by simpa using hv.2)⟩
  | load r a =>
    rw [wellFormed_load, addressInRange_iff] at hv
    exact ⟨_, execLoad_of_inRange r s hv.1 (by simpa using hv.2)⟩
  | jmp a => exact ⟨_, rfl⟩
  | jz r a => exact ⟨_, rfl⟩
  | hlt => exact ⟨_, rfl⟩

end Sys2Proof.Machine
end

