-- ==== Sys2Proof/Laws/PerInstr.lean ====
section
/-! SUPPORT. Facts about every instruction as syntax, one lemma per constructor. -/

namespace Sys2Proof.Laws.EntryTag

/-- The entry of an instruction carries the tag of its opcode, and the tag names that opcode (30_encoding.md R71,
R72). -/
def Statement (i : Instr) : Prop :=
  (encodeEntry i).op = i.opcode.tag ∧ Opcode.ofTag (encodeEntry i).op = some i.opcode

theorem ldi (r : Reg) (imm : Int) : Statement (.ldi r imm) := ⟨rfl, rfl⟩
theorem add (d s : Reg) : Statement (.add d s) := ⟨rfl, rfl⟩
theorem store (r : Reg) (a : Int) : Statement (.store r a) := ⟨rfl, rfl⟩
theorem load (r : Reg) (a : Int) : Statement (.load r a) := ⟨rfl, rfl⟩
theorem jmp (a : Int) : Statement (.jmp a) := ⟨rfl, rfl⟩
theorem jz (r : Reg) (a : Int) : Statement (.jz r a) := ⟨rfl, rfl⟩
theorem hlt : Statement .hlt := ⟨rfl, rfl⟩

end Sys2Proof.Laws.EntryTag
end

