-- ==== Sys2Proof/Laws/Step.lean ====
section
/-! SUPPORT. Everything a step can do, said once (40_step_cycle.md R100). -/

namespace Sys2Proof.Machine

/-- An executed step: the entry at `PC`, its instruction, the fetched state, the state the meaning leaves, and the state
after retirement. -/
structure ExecutedStep (s t : State) (e : Entry) (i : Instr) (s1 s2 : State) : Prop where
  running : s.halted = false
  entry : s.prog[s.PC.toNat]? = some e
  decoded : decodeEntry e = .ok i
  valid : i.wellFormed s.wordLength = true
  fetched : fetch e s = .ok s1
  executed : exec i s1 = .next s2
  retired : t = retire s2

/-- A step that answers a next state is the "halted" step, the fall-through step, or an executed step (R100 to R102). -/
theorem step_cases {s t : State} (h : step s = .next t) :
    (s.halted = true ∧ t = s) ∨
    (s.halted = false ∧ s.prog[s.PC.toNat]? = none ∧ t = s.halt) ∨
    (∃ e i s1 s2, ExecutedStep s t e i s1 s2) := by
  unfold step stepReport at h
  split at h
  · rename_i hh
    left
    exact ⟨hh, by simpa [StepReport.outcome] using h.symm⟩
  · rename_i hh
    have hh : s.halted = false := by simpa using hh
    right
    split at h
    · rename_i hn
      left
      exact ⟨hh, hn, by simpa [StepReport.outcome] using h.symm⟩
    · rename_i e he
      right
      split at h
      · cases h
      · rename_i i hi
        obtain ⟨hdec, hwf⟩ := decodeValid_eq_ok.mp hi
        unfold runEntry at h
        split at h
        · cases h
        · rename_i s1 hf
          split at h
          · rename_i s2 hx
            exact ⟨e, i, s1, s2, hh, he, hdec, hwf, hf, hx, by simpa [StepReport.outcome] using h.symm⟩
          · cases h
          · cases h

/-- The report of an executed step, from its parts. -/
theorem stepReport_of_executed {s t : State} {e : Entry} {i : Instr} {s1 s2 : State}
    (x : ExecutedStep s t e i s1 s2) :
    stepReport s = .ok t (⟨.fetch, s1.bus, none⟩ :: executeSteps i s1 s2) := by
  unfold stepReport
  simp only [x.running, Bool.false_eq_true, if_false, x.entry, decodeValid_eq_ok.mpr ⟨x.decoded, x.valid⟩,
    runEntry, x.fetched, x.executed, x.retired]

/-- `n` is past the last entry exactly when the store has no entry there. -/
theorem no_entry_iff (s : State) : s.prog[s.PC.toNat]? = none ↔ s.prog.length ≤ s.PC.toNat :=
  List.getElem?_eq_none_iff

/-! ## The fetched state -/

theorem fetch_gpr {e : Entry} {s t : State} (h : fetch e s = .ok t) (g : Reg) : t.gpr g = s.gpr g := by
  obtain ⟨-, rfl⟩ := fetch_ok h
  simp

theorem fetch_PC {e : Entry} {s t : State} (h : fetch e s = .ok t) : t.PC = s.PC := by
  obtain ⟨-, rfl⟩ := fetch_ok h
  simp

theorem fetch_wordLength {e : Entry} {s t : State} (h : fetch e s = .ok t) : t.wordLength = s.wordLength := by
  obtain ⟨-, rfl⟩ := fetch_ok h
  simp

theorem fetch_mem {e : Entry} {s t : State} (h : fetch e s = .ok t) : t.mem = s.mem := by
  obtain ⟨-, rfl⟩ := fetch_ok h
  simp

theorem retire_gpr (s : State) (g : Reg) : (retire s).gpr g = mask s.wordLength (s.gpr g).toNat := by
  cases g <;> rfl

/-! ## `runs` and executed steps -/

theorem ExecutedStep.runs {s t : State} {e : Entry} {i : Instr} {s1 s2 : State} (x : ExecutedStep s t e i s1 s2) :
    runs s i :=
  ⟨x.running, (fetch_ok x.fetched).1, e, x.entry, x.decoded, x.valid⟩

/-- A machine is at one instruction only. -/
theorem runs_unique {s : State} {i j : Instr} (hi : runs s i) (hj : runs s j) : i = j := by
  obtain ⟨-, -, e, he, hd, -⟩ := hi
  obtain ⟨-, -, e', he', hd', -⟩ := hj
  cases he.symm.trans he'
  cases hd.symm.trans hd'
  rfl

/-- A completed step of a machine at the instruction `i` is an executed step of `i`. -/
theorem executed_of_runs {s t : State} {i : Instr} (h : runs s i) (hs : step s = .next t) :
    ∃ e s1 s2, ExecutedStep s t e i s1 s2 := by
  rcases step_cases hs with ⟨hh, -⟩ | ⟨-, hn, -⟩ | ⟨e, j, s1, s2, x⟩
  · rw [h.1] at hh
    cases hh
  · obtain ⟨-, -, e, he, -⟩ := h
    rw [he] at hn
    cases hn
  · cases runs_unique h x.runs
    exact ⟨e, s1, s2, x⟩

/-! ## The invariant, part by part -/

/-- The parts of `State.Inv` as named fields. -/
structure InvParts (s : State) : Prop where
  a : s.A.toNat < s.wordLength.modulus
  b : s.B.toNat < s.wordLength.modulus
  dr : s.DR.toNat < s.wordLength.modulus
  ar : s.AR.toNat < s.wordLength.modulus
  pc : s.PC.toNat ≤ memorySize
  sp : s.SP = 63
  memWf : s.mem.wf = true
  memFits : s.mem.fits s.wordLength = true
  size : s.prog.length ≤ memorySize
  valid : ∀ e ∈ s.prog, Entry.valid s.wordLength e = true

theorem inv_iff (s : State) : s.Inv = true ↔ InvParts s := by
  simp only [State.Inv, Bool.and_eq_true, isWord_iff, decide_eq_true_eq, List.all_eq_true]
  constructor
  · rintro ⟨⟨⟨⟨⟨⟨⟨⟨⟨a, b⟩, dr⟩, ar⟩, pc⟩, sp⟩, memWf⟩, memFits⟩, size⟩, valid⟩
    exact ⟨a, b, dr, ar, pc, sp, memWf, memFits, size, valid⟩
  · rintro ⟨a, b, dr, ar, pc, sp, memWf, memFits, size, valid⟩
    exact ⟨⟨⟨⟨⟨⟨⟨⟨⟨a, b⟩, dr⟩, ar⟩, pc⟩, sp⟩, memWf⟩, memFits⟩, size⟩, valid⟩

end Sys2Proof.Machine
end

