-- ==== Sys2Proof/Machine/Runner.lean ====
section
/-! DEFINITION. The test runner's comparison (45_host_commands.md R176, R177), kept because it fixes how the source's
scenarios are read. It is outside the block: no step and no command uses it. -/

namespace Sys2Proof.Machine

/-- A declared expected outcome: a subset of the final `halted` flag, registers and memory cells (R176). -/
structure Expectation where
  halted : Option Bool
  registers : List (RegName × Int)
  cells : List (Nat × Int)
deriving DecidableEq, Repr

/-- One detail of a failing verdict. -/
inductive Mismatch where
  | halted (found : Bool)
  | register (r : RegName) (expected : Int) (found : Word)
  | cell (addr : Nat) (expected : Int) (found : Word)
  /-- An error during load or run, the sole detail (R176). -/
  | error (e : HostError)
deriving DecidableEq, Repr

/-- A declared value is met when the stored value equals `mask_w(v)` (R177). -/
def valueMet (w : WordLength) (expected : Int) (stored : Word) : Bool :=
  stored == mask w expected

/-- What in the final state differs from the expectation (R176). -/
def mismatches (x : Expectation) (s : State) : List Mismatch :=
  (match x.halted with
    | some h => if s.halted == h then [] else [.halted s.halted]
    | none => []) ++
  x.registers.filterMap (fun (r, v) =>
    if valueMet s.wordLength v (s.reg r) then none else some (.register r v (s.reg r))) ++
  x.cells.filterMap (fun (a, v) =>
    if valueMet s.wordLength v (s.mem.read a) then none else some (.cell a v (s.mem.read a)))

/-- Load one program, run it to halt and compare (R176): the state it leaves, and the details; no detail is a pass. -/
def runCase (text : String) (x : Expectation) (s : State) : State × List Mismatch :=
  let loaded := loadProgram text s
  match loaded.response with
  | .error e => (loaded.state, [.error e])
  | _ =>
    let run := runUntilHalt defaultMaxSteps loaded.state
    match run.response with
    | .error e => (run.state, [.error e])
    | _ => (run.state, mismatches x run.state)

/-- `runAll(programs)` (R176): the details program by program, and the number of passes. -/
def runAll : List (String × Expectation) → State → State × List (List Mismatch) × Nat
  | [], s => (s, [], 0)
  | (text, x) :: rest, s =>
    let (s1, details) := runCase text x s
    let (s2, more, passes) := runAll rest s1
    (s2, details :: more, if details.isEmpty then passes + 1 else passes)

end Sys2Proof.Machine
end

