-- ==== Sys2Proof/Tests/Slice0.lean ====
section
/-! SUPPORT. The model's own tests: words written out from spec/30_encoding.md, refusals of ill-formed terms, single
steps whose results are the vectors of spec/95_test_vectors.md, and, for every statement that has hypotheses, a
concrete state that meets them (`witness_…`). -/

namespace Sys2Proof.Tests

open Sys2Proof.Machine

/-! ## Helpers -/

/-- The power-on state at word length `w` with a program in the instruction store, `PC`, `A`, `B` and memory as given. -/
def machine (w : WordLength) (prog : List Instr) (pc : Word := 0) (a : Word := 0) (b : Word := 0) (mem : Memory := []) :
    State :=
  { State.reset with
    wordLength := w, displayBase := .bin, prog := prog.map encodeEntry, PC := pc, A := a, B := b, mem := mem }

/-- What `f` reads in the state an outcome leaves. -/
def after {α : Type} (f : State → α) : Host.Outcome State Fault Refusal → Option α
  | .next t => some (f t)
  | .fault _ => none
  | .refused _ => none

/-- The refusal of an outcome. -/
def refusal : Host.Outcome State Fault Refusal → Option Refusal
  | .next _ => none
  | .fault _ => none
  | .refused r => some r

/-- The error of a command, if it failed. -/
def failure : Response → Option HostError
  | .error e => some e
  | .count _ => none
  | .report _ => none
  | .done => none
  | .snapshot _ => none

/-- The result of a computation that may fail. -/
def answer {ε α : Type} : Except ε α → Option α
  | .ok a => some a
  | .error _ => none

/-- The error of a computation that may fail. -/
def reason {ε α : Type} : Except ε α → Option ε
  | .ok _ => none
  | .error e => some e

/-! ## WellFormed: an ill-formed term for each check -/

theorem test_refuses_ldi_above_range10 : (Instr.ldi .A 512).wellFormed .w10 = false := by decide
theorem test_refuses_ldi_below_range10 : (Instr.ldi .A (-513)).wellFormed .w10 = false := by decide
theorem test_refuses_ldi_above_range16 : (Instr.ldi .B 32768).wellFormed .w16 = false := by decide
theorem test_refuses_ldi_below_range16 : (Instr.ldi .B (-32769)).wellFormed .w16 = false := by decide
theorem test_refuses_store_address : (Instr.store .A 64).wellFormed .w16 = false := by decide
theorem test_refuses_load_address : (Instr.load .A (-1)).wellFormed .w10 = false := by decide
theorem test_refuses_jmp_target : (Instr.jmp 100).wellFormed .w16 = false := by decide
theorem test_refuses_jz_target : (Instr.jz .B 64).wellFormed .w10 = false := by decide
/-- The bounds themselves are admitted (E-src-6). -/
theorem test_admits_range_ends :
    [Instr.ldi .A 511, .ldi .A (-512), .store .B 63, .load .A 0, .jmp 63, .jz .A 0, .add .A .B, .hlt].all
      (·.wellFormed .w10) = true := by decide

/-! ## Decoding: words written out bit by bit from R82 -/

theorem test_word_ldi : decodeTableWord 16 0b0001100000000011 = some (.ldi .B 3) := by decide
theorem test_word_ldi_negative : decodeTableWord 16 0b0001011111111111 = some (.ldi .A (-1)) := by decide
theorem test_word_add : decodeTableWord 16 0b0010000000000001 = some (.add .A .B) := by decide
theorem test_word_store : decodeTableWord 16 0b0011000001001010 = some (.store .B 10) := by decide
theorem test_word_load : decodeTableWord 16 0b0100000001000101 = some (.load .B 5) := by decide
theorem test_word_jmp : decodeTableWord 16 0b0101000000111111 = some (.jmp 63) := by decide
theorem test_word_jz : decodeTableWord 16 0b0110000001000100 = some (.jz .B 4) := by decide
theorem test_word_hlt : decodeTableWord 16 0b1111000000000000 = some .hlt := by decide
/-- The reserved tags (R87), and words with a set bit where R82 has a fixed zero. -/
theorem test_refuses_words :
    [0x0000, 0x7000, 0xE000, 0x2004, 0x3080, 0x4800, 0x5040, 0x6100, 0xF001].all
      (fun w => (decodeTableWord 16 w).isNone) = true := by decide

/-- The entries of the seven instructions, field by field from R72. -/
theorem test_entries :
    answer (decodeEntry ⟨1, 1, 0, 0xFFFE, 0⟩) = some (.ldi .B (-2)) ∧
    answer (decodeEntry ⟨2, 1, 0, 0, 0⟩) = some (.add .B .A) ∧
    answer (decodeEntry ⟨3, 1, 0, 0, 63⟩) = some (.store .B 63) ∧
    answer (decodeEntry ⟨4, 0, 0, 0, 9⟩) = some (.load .A 9) ∧
    answer (decodeEntry ⟨5, 0, 0, 0, 40⟩) = some (.jmp 40) ∧
    answer (decodeEntry ⟨6, 1, 0, 0, 4⟩) = some (.jz .B 4) ∧
    answer (decodeEntry ⟨15, 0, 0, 0, 0⟩) = some .hlt := by decide

theorem test_refuses_entries :
    reason (decodeEntry ⟨7, 0, 0, 0, 0⟩) = some (.badTag 7) ∧
    reason (decodeEntry ⟨1, 0, 1, 3, 0⟩) = some (.unusedField .ldi) ∧
    reason (decodeEntry ⟨5, 1, 0, 0, 3⟩) = some (.unusedField .jmp) := by decide

/-! ## Image words at both widths (VN1 to VN12) and tag recovery -/

theorem test_images16 :
    [Instr.ldi .A 2, .ldi .B 3, .ldi .A (-1), .ldi .A (-512), .ldi .B (-32768), .add .B .A, .store .B 10, .load .B 5,
      .jmp 63, .jz .B 4, .hlt].map (encode .w16)
    = [0x1002, 0x1803, 0x17FF, 0x1600, 0x1800, 0x2002, 0x304A, 0x4045, 0x503F, 0x6044, 0xF000] := by decide

theorem test_images10 :
    [Instr.ldi .A 2, .ldi .B 3, .ldi .A (-1), .ldi .A (-512), .ldi .A 32, .add .B .B, .store .B 10, .load .B 5,
      .jmp 63, .jz .B 4, .hlt].map (encode .w10)
    = [0x042, 0x063, 0x05F, 0x040, 0x040, 0x083, 0x0CA, 0x105, 0x17F, 0x184, 0x3C0] := by decide

theorem test_tags :
    decodeTag .w16 0x4045 = some .load ∧ decodeTag .w10 0x105 = some .load ∧ decodeTag .w10 0x145 = some .jmp ∧
    decodeTag .w16 0x7000 = none ∧ decodeTag .w10 0x000 = none ∧ decodeTag .w10 0x3C0 = some .hlt := by decide

/-! ## One step of each instruction -/

/-- VL8: the signed immediate, at the word length in force. -/
theorem test_ldi_16 : after (fun t => (t.A, t.DR, t.PC)) (step (machine .w16 [.ldi .A (-1)])) = some (65535, 65535, 1) := by
  decide
/-- VL5. -/
theorem test_ldi_10 : after (fun t => (t.A, t.DR, t.B)) (step (machine .w10 [.ldi .A (-512)])) = some (512, 512, 0) := by
  decide

/-- VF3: signed overflow leaves `OF` clear. -/
theorem test_add_signed :
    after (fun t => (t.A, t.DR, t.SF, t.OF, t.B)) (step (machine .w16 [.add .A .B] 0 32767 1))
    = some (32768, 32768, true, false, 1) := by decide
/-- VF16: carry-out at ten bits, destination `B`. -/
theorem test_add_carry :
    after (fun t => (t.B, t.SF, t.OF, t.A)) (step (machine .w10 [.add .B .A] 0 1023 1023))
    = some (1022, true, true, 1023) := by decide

/-- VM1. -/
theorem test_store :
    after (fun t => (t.mem.read 63, t.AR, t.DR, t.phase)) (step (machine .w16 [.store .B 63] 0 0 0xABCD))
    = some (0xABCD, 63, 0xABCD, .writeback) := by decide
/-- VM6: the image word is overwritten; the entry is not. -/
theorem test_store_over_image :
    after (fun t => (t.mem.read 0, t.prog)) (step (machine .w10 [.store .A 0] 0 1023 0 [(0, 0x0C0)]))
    = some (1023, [encodeEntry (.store .A 0)]) := by decide

/-- VM2. -/
theorem test_load :
    after (fun t => (t.A, t.DR, t.AR)) (step (machine .w16 [.load .A 63] 0 0 0 [(63, 0xABCD)]))
    = some (0xABCD, 0xABCD, 63) := by decide
/-- VM5: a cell nothing wrote. -/
theorem test_load_unwritten : after (fun t => t.B) (step (machine .w16 [.load .B 20] 0 0 9)) = some 0 := by decide

/-- VJ1: `DR` and `AR` keep what the fetch left. -/
theorem test_jmp :
    after (fun t => (t.PC, t.DR, t.AR)) (step (machine .w16 [.hlt, .hlt, .hlt, .jmp 5] 3 0 0 [(3, 0x5005)]))
    = some (5, 0x5005, 3) := by decide
/-- VJ2. -/
theorem test_jz_taken : after (fun t => t.PC) (step (machine .w16 [.hlt, .jz .A 4] 1 0 7)) = some 4 := by decide
/-- VJ4. -/
theorem test_jz_not_taken : after (fun t => t.PC) (step (machine .w16 [.hlt, .jz .A 4] 1 65535)) = some 2 := by decide
/-- VJ8. -/
theorem test_hlt :
    after (fun t => (t.halted, t.PC, t.cycle, t.IR)) (step (machine .w16 [.hlt, .hlt, .hlt, .hlt, .hlt] 4))
    = some (true, 4, 1, 15) := by decide

/-- VS2 and VS3: fall-through. -/
theorem test_no_instruction :
    (stepReport (machine .w16 [])).code = some 2 ∧
    after (fun t => (t.halted, t.phase, t.cycle, t.PC)) (step (machine .w16 [.hlt, .hlt] 2)) = some (true, .halt, 0, 2) := by
  decide

/-- An `LDI` immediate that only 16 bits admit is refused by a machine at ten bits (R74). -/
theorem test_refuses_unvalidated :
    refusal (step (machine .w10 [.ldi .A 1000])) = some (.unvalidatedOperand 1000) := by decide

/-- The host's placing of a word: the next step from reset runs it. -/
theorem test_withFetchWord :
    after (fun t => (t.B, t.cycle, t.IR)) (step (State.reset.withFetchWord 16 0b0001100000000011)) = some (3, 1, 1) := by
  decide

/-! ## Host commands and the assembler -/

/-- VA1 to VA3. -/
theorem test_parses :
    answer (parse "ldi a, 5 ; load") = some [.ldi .A 5] ∧ answer (parse "LOAD B , [ 12 ]") = some [.load .B 12] ∧
    answer (parse "\n\nLDI A,1\n# note\nHLT // stop") = some [.ldi .A 1, .hlt] := by decide

/-- VA4 to VA7 and VA9. -/
theorem test_parse_errors :
    (reason (parse "LDI A,1\n\nNOP")).map (·.line) = some (some 3) ∧
    (reason (parse "HLT 3")).map (·.line) = some (some 1) ∧
    reason (parse "; only a comment") = some ⟨none, .noInstructions⟩ ∧
    (reason (parse "JMP [5]")).map (·.line) = some (some 1) ∧
    (reason (parse "ADD A")).map (·.line) = some (some 1) := by decide

/-- VH1, VH2, VA8. -/
theorem test_range_errors :
    failure (loadProgram "LDI A, 512" (machine .w10 [])).response = some (.rangeError 0 512) ∧
    failure (loadProgram "HLT\nLDI A, -32769" (machine .w16 [])).response = some (.rangeError 1 (-32769)) ∧
    failure (loadProgram "JMP 100" (machine .w16 [])).response = some (.rangeError 0 100) := by decide

/-- VH3. -/
theorem test_program_too_large :
    failure (loadInstrs (List.replicate 65 .hlt) (machine .w16 [])).response = some (.programTooLarge 65) := by decide

/-- VH6 and VH7. -/
theorem test_width_refused :
    failure (setWordLength 10 (machine .w16 [.ldi .A 1000, .hlt])).response = some (.rangeError 0 1000) ∧
    failure (setWordLength 12 (machine .w16 [])).response = some (.unsupportedConfiguration (.wordLength 12)) := by decide

/-- VH8: registers and data cells are clipped, the image is rewritten. -/
theorem test_width_clips :
    let t := (setWordLength 10 (machine .w16 [.ldi .A (-1), .store .A 40, .hlt] 2 65535 0 [(40, 65535)])).state
    t.A = 1023 ∧ t.mem = [(0, 0x05F), (1, 0x0E8), (2, 0x3C0), (40, 1023)] := by decide

/-- VH9: not sign-extended. -/
theorem test_width_widens : (setWordLength 16 (machine .w10 [] 0 1023)).state.A = 1023 := by decide

/-! ## Witnesses: the hypotheses of the statements can be met

One theorem per statement that has hypotheses, with a case for each clause; addresses at both ends of `[0, 64)`. -/

theorem witness_DecodeOfEncodedEntryIsTheInstruction :
    [Instr.ldi .A (-32768), .ldi .B 32767, .add .B .A, .store .B 63, .load .A 0, .jmp 63, .jz .B 0, .hlt].all
      (·.wellFormed .w16) = true ∧ (Instr.ldi .A (-512)).wellFormed .w10 = true := by decide

theorem witness_DecodedEntryEncodesBack :
    decodeEntry ⟨1, 1, 0, 0x8000, 0⟩ = .ok (.ldi .B (-32768)) ∧ decodeEntry ⟨6, 1, 0, 0, 63⟩ = .ok (.jz .B 63) :=
  ⟨rfl, rfl⟩

theorem witness_OpcodeTagSurvivesTheImage :
    Opcode.ofTag (⟨15, 0, 0, 0, 0⟩ : Entry).op = some .hlt ∧ Opcode.ofTag (⟨4, 1, 0, 0, 5⟩ : Entry).op = some .load ∧
    Opcode.ofTag 7 = none := by decide

theorem witness_ImageWordsReadBack :
    decodeImage 0xF000 = .ok .hlt ∧ decodeImage 0x17FF = .ok (.ldi .A (-1)) ∧
    ((Instr.ldi .A (-1024)).wellFormed .w16 = true ∧
      ∀ r imm, Instr.ldi .A (-1024) = .ldi r imm → -1024 ≤ imm ∧ imm ≤ 1023) ∧
    ((Instr.jz .B 63).wellFormed .w16 = true ∧
      ∀ r imm, Instr.jz .B 63 = .ldi r imm → -1024 ≤ imm ∧ imm ≤ 1023) := by
  refine ⟨rfl, rfl, ⟨by decide, ?_⟩, by decide, ?_⟩
  · intro r imm h
    cases h
    decide
  · intro r imm h
    cases h

/-- A machine at `ADD A, A` with `A = 49152` (VF22), at `ADD A, B`, and at `ADD B, A`. -/
theorem witness_AddSameRegisterDoubles :
    ((machine .w16 [] 0 49152).gpr .A).toNat < 2 ^ WordLength.w16.bits ∧
    (∃ t, exec (.add .A .A) (machine .w16 [] 0 49152) = .next t) ∧
    (∃ t, exec (.add .A .B) (machine .w16 [] 0 1 2) = .next t) ∧
    (∃ t, exec (.add .B .A) (machine .w10 [] 0 1 2) = .next t) :=
  ⟨by decide, ⟨_, rfl⟩, ⟨_, rfl⟩, ⟨_, rfl⟩⟩

/-- For `LoadReadsTheCell`, `StoreWritesOnlyItsCell` and `MemoryReadsWhatWasWritten`: a canonical memory of words, and
both end addresses. -/
theorem witness_memory_access :
    let s := machine .w10 [] 0 0 0 [(0, 1023), (63, 5)]
    s.mem.wf = true ∧ s.mem.fits s.wordLength = true ∧ (0 : Int) ≤ 0 ∧ (0 : Int) < 64 ∧ (0 : Int) ≤ 63 ∧
    (63 : Int) < 64 := by decide

/-- For `JmpSetsThePc` and `JzBranchesOnExactZero`: both end targets, a zero and a non-zero register. -/
theorem witness_jump_targets :
    (0 : Int) ≤ 0 ∧ (0 : Int) < 64 ∧ (0 : Int) ≤ 63 ∧ (63 : Int) < 64 ∧
    (machine .w16 [] 1 0 65535).gpr .A = 0 ∧ (machine .w16 [] 1 0 65535).gpr .B ≠ 0 := by decide

theorem witness_OutOfRangeAddressFaults : ¬((0 : Int) ≤ -1 ∧ (-1 : Int) < 64) ∧ ¬((0 : Int) ≤ 64 ∧ (64 : Int) < 64) := by
  decide

/-- A running machine at `STORE B, 63` followed by `LOAD A, 63`. -/
def storeThenLoad : State := machine .w16 [.store .B 63, .load .A 63] 0 0 0xABCD

theorem runs_storeThenLoad : runs storeThenLoad (.store .B 63) :=
  ⟨rfl, by decide, _, rfl, rfl, by decide⟩

theorem witness_LoadAfterStoreReturnsTheStoredValue :
    storeThenLoad.Inv = true ∧ runs storeThenLoad (.store .B 63) ∧
    ∃ t, step storeThenLoad = .next t ∧ runs t (.load .A 63) ∧ ∃ u, step t = .next u :=
  ⟨by decide, runs_storeThenLoad, _, rfl, ⟨rfl, by decide, _, rfl, rfl, by decide⟩, _, rfl⟩

theorem witness_CanonicalMemoriesThatReadAlikeAreEqual :
    let m := Memory.write 3 7 (Memory.write 9 1 [])
    let n := Memory.write 9 1 (Memory.write 3 7 [])
    m.wf = true ∧ n.wf = true ∧ ∀ a, m.read a = n.read a :=
  ⟨by decide, by decide, fun _ => rfl⟩

/-- For `StepRunsTheDecodedInstruction` and the statements about executed steps: a machine that satisfies the invariant,
at the instruction, whose step completes and is reported. -/
theorem witness_executed_step :
    storeThenLoad.Inv = true ∧ runs storeThenLoad (.store .B 63) ∧ (∃ t, step storeThenLoad = .next t) ∧
    ∃ t rec, stepReport storeThenLoad = .ok t rec :=
  ⟨by decide, runs_storeThenLoad, ⟨_, rfl⟩, _, _, rfl⟩

theorem witness_load_step :
    let s := machine .w10 [.load .A 63] 0 0 0 [(63, 1023)]
    s.Inv = true ∧ runs s (.load .A 63) ∧ ∃ t rec, stepReport s = .ok t rec :=
  ⟨by decide, ⟨rfl, by decide, _, rfl, rfl, by decide⟩, _, _, rfl⟩

/-- For `ExecutedStepsRecordTheirMicroSteps`: with the two above, a reported step of each remaining instruction, in a
state that satisfies the invariant. -/
theorem witness_recorded_steps (i : Instr)
    (h : i ∈ [.ldi .B (-512), .add .A .B, .jmp 63, .jz .A 0, .hlt]) :
    (machine .w10 [i]).Inv = true ∧ runs (machine .w10 [i]) i ∧ ∃ t rec, stepReport (machine .w10 [i]) = .ok t rec := by
  simp only [List.mem_cons, List.mem_nil_iff, or_false] at h
  rcases h with rfl | rfl | rfl | rfl | rfl
  all_goals exact ⟨by decide, ⟨rfl, by decide, _, rfl, rfl, by decide⟩, _, _, rfl⟩

/-- `PC` at both ends of memory, over a memory of ten-bit words. -/
theorem witness_FetchCopiesTheMemoryWord :
    (machine .w10 [] 0 0 0 [(63, 1023)]).PC.toNat < 64 ∧ (machine .w10 [] 63 0 0 [(63, 1023)]).PC.toNat < 64 ∧
    (machine .w10 [] 63 0 0 [(63, 1023)]).mem.fits .w10 = true := by decide

/-- A halted machine, for `HaltedStepChangesNothing` and the halted clauses. -/
theorem witness_halted :
    (machine .w16 [.hlt]).halt.halted = true ∧ ∃ t, step (machine .w16 [.hlt]).halt = .next t := ⟨rfl, _, rfl⟩

/-- Fall-through from `PC = 64` behind a full program, and with no program. -/
theorem witness_fall_through :
    (machine .w16 (List.replicate 64 .hlt) 64).halted = false ∧
    (machine .w16 (List.replicate 64 .hlt) 64).prog.length ≤ (machine .w16 (List.replicate 64 .hlt) 64).PC.toNat ∧
    (∃ t, step (machine .w16 [] 0) = .next t) ∧ (machine .w16 []).prog.length ≤ (machine .w16 []).PC.toNat :=
  ⟨rfl, by decide, ⟨_, rfl⟩, by decide⟩

theorem witness_IllegalEntriesAreRefused :
    let s := { machine .w10 [] with prog := [⟨7, 0, 0, 0, 0⟩] }
    let u := machine .w10 [.ldi .A 512]
    (s.halted = false ∧ s.prog[s.PC.toNat]? = some ⟨7, 0, 0, 0, 0⟩ ∧ Opcode.ofTag 7 = none) ∧
    (u.halted = false ∧ u.prog[u.PC.toNat]? = some (encodeEntry (.ldi .A 512)) ∧
      decodeEntry (encodeEntry (.ldi .A 512)) = .ok (.ldi .A 512) ∧
      (Instr.ldi .A 512).violation u.wordLength = some 512) :=
  ⟨⟨rfl, rfl, rfl⟩, rfl, rfl, rfl, by decide⟩

theorem witness_OnlyStoreWritesMemory :
    ∃ t, step storeThenLoad = .next t ∧ storeThenLoad.Inv = true ∧ t.mem.read 63 ≠ storeThenLoad.mem.read 63 :=
  ⟨_, rfl, by decide, by decide⟩

theorem witness_OnlyLdiAddLoadWriteGeneralRegisters :
    let s := machine .w16 [.ldi .B 7]
    ∃ t, step s = .next t ∧ s.Inv = true ∧ t.gpr .B ≠ s.gpr .B :=
  ⟨_, rfl, by decide, by decide⟩

theorem witness_OnlyAddWritesTheFlags :
    let s := machine .w16 [.add .A .B] 0 65535 1
    ∃ t, step s = .next t ∧ ¬sameFlags s t :=
  ⟨_, rfl, fun h => absurd h.2 (by decide)⟩

/-- A running machine halted by `HLT`, one that a step leaves running, and a command that halts. -/
theorem witness_HaltHasExactlyTwoCauses :
    (machine .w16 [.hlt]).halted = false ∧ runs (machine .w16 [.hlt]) .hlt ∧
    (∃ t, step (machine .w16 [.hlt]) = .next t ∧ t.halted = true) ∧
    (∃ t, step storeThenLoad = .next t ∧ t.halted = false) ∧
    (command .step (machine .w16 [.hlt])).state.halted = true :=
  ⟨rfl, ⟨rfl, by decide, _, rfl, rfl, by decide⟩, ⟨_, rfl, rfl⟩, ⟨_, rfl, rfl⟩, rfl⟩

/-- A completed step that does not execute `LOAD`. -/
theorem witness_MemoryContentsNeverSteerExecution :
    (∃ t, step storeThenLoad = .next t) ∧ ∀ r a, ¬runs storeThenLoad (.load r a) := by
  refine ⟨⟨_, rfl⟩, fun r a h => ?_⟩
  cases runs_unique h runs_storeThenLoad

theorem witness_PhaseAndDisplayBaseGateNothing :
    storeThenLoad.halted = false ∧ ∃ t, step storeThenLoad = .next t := ⟨rfl, _, rfl⟩

/-- For `EveryStepKeepsTheInvariant`, `LoadedProgramsNeverFault`, `EveryHostCommandKeepsTheInvariant` and
`RunUntilHaltHaltsOrExhaustsTheBudget`: states that satisfy the invariant, running and halted. -/
theorem witness_invariant :
    storeThenLoad.Inv = true ∧ (∃ t, step storeThenLoad = .next t) ∧
    (machine .w10 (List.replicate 64 (.jz .B 63)) 64 1023 1023 [(0, 1023), (63, 1)]).Inv = true ∧
    (machine .w16 [.hlt]).halt.Inv = true :=
  ⟨by decide, ⟨_, rfl⟩, by decide, by decide⟩

/-- A failure of each class a command other than `runUntilHalt` can answer on a state that satisfies the invariant, and of
a step over an illegal entry. -/
theorem witness_FailedCommandsChangeNothing :
    (command (.setWordLength 12) storeThenLoad).response = .error (.unsupportedConfiguration (.wordLength 12)) ∧
    (command (.setWordLength 10) (machine .w16 [.ldi .A 1000])).response = .error (.rangeError 0 1000) ∧
    (command (.setDisplayBase "oct") storeThenLoad).response = .error (.unsupportedConfiguration (.displayBase "oct")) ∧
    (command (.loadProgram "NOP") storeThenLoad).response = .error (.parseError ⟨some 1, .unknownOpcode⟩) ∧
    (command (.loadProgram "JMP 64") storeThenLoad).response = .error (.rangeError 0 64) ∧
    (command .step { machine .w10 [] with prog := [⟨7, 0, 0, 0, 0⟩] }).response =
      .error (.refusedExecution (.illegalEntry (.badTag 7))) ∧
    (∀ n, Command.setWordLength 12 ≠ .runUntilHalt n) ∧ (∀ n, Command.loadProgram "NOP" ≠ .runUntilHalt n) :=
  ⟨rfl, rfl, rfl, rfl, rfl, rfl, fun _ h => (nomatch h), fun _ h => (nomatch h)⟩

/-- A program whose second instruction is the first violation, and the two ends of the ten-bit immediate. -/
theorem witness_ValidationReportsTheFirstViolation :
    validate [.hlt, .ldi .A 512, .jmp 64] .w10 = .error (.rangeError 1 512) ∧
    validate [.ldi .A 511, .ldi .B (-512), .jmp 63] .w10 = .ok () := ⟨rfl, rfl⟩

/-- A source that parses and one that does not; a program of 64, one of 65, and one with an operand out of range. -/
theorem witness_ProgramsOfAtMost64InstructionsLoad :
    parse "HLT" = .ok [.hlt] ∧ parse "NOP" = .error ⟨some 1, .unknownOpcode⟩ ∧
    (List.replicate 64 Instr.hlt).length ≤ 64 ∧
    (∀ x ∈ List.replicate 64 Instr.hlt, x.wellFormed (machine .w10 []).wordLength = true) ∧
    64 < (List.replicate 65 Instr.hlt).length ∧
    ([.hlt, .jmp 100] : List Instr).length ≤ 64 ∧
    validate [.hlt, .jmp 100] (machine .w16 []).wordLength = .error (.rangeError 1 100) :=
  ⟨rfl, rfl, by decide, fun x h => by rw [(List.mem_replicate.mp h).2]; rfl, by decide, by decide, rfl⟩

/-- A load that succeeds, and a reset of a halted machine with a program and values left in registers and flags. -/
theorem witness_LoadAndResetLeaveTheImage :
    (command (.loadProgram "LDI A, 1\nHLT") storeThenLoad).response = .count 2 ∧
    (command .reset { machine .w16 [.hlt] 0 5 7 [(9, 1)] with SF := true, halted := true, cycle := 4 }).response = .done :=
  ⟨rfl, rfl⟩

/-- An accepted name and a refused one, for `DisplayBaseCommandWritesOnlyTheDisplayBase`. -/
theorem witness_DisplayBaseCommandWritesOnlyTheDisplayBase :
    ("hex", DisplayBase.hex) ∈ [("bin", DisplayBase.bin), ("hex", .hex), ("dec", .dec)] ∧
    "HEX" ≠ "bin" ∧ "HEX" ≠ "hex" ∧ "HEX" ≠ "dec" := by decide

theorem witness_WidthChangeClipsAndRewritesTheImage :
    let s := machine .w16 [.ldi .A (-1), .hlt] 0 65535 0 [(40, 65535)]
    s.mem.wf = true ∧ (setWordLength 10 s).response = .done := ⟨by decide, rfl⟩

/-- A width that is refused, one that the loaded program rejects (at its second entry), and one that it passes. -/
theorem witness_WidthChangeIsAllOrNothing :
    let s := machine .w16 [.hlt, .ldi .A 1000]
    ((12 : Int) ≠ 10 ∧ (12 : Int) ≠ 16) ∧
    ((10 : Int) = WordLength.w10.bits ∧ s.prog.all (Entry.valid .w16) = true ∧ s.prog.all (Entry.valid .w10) = false ∧
      failure (setWordLength 10 s).response = some (.rangeError 1 1000)) ∧
    ((16 : Int) = WordLength.w16.bits ∧ s.prog.all (Entry.valid .w16) = true) := by decide

/-- A source whose third line is the first invalid one. -/
theorem witness_ParserNamesTheFirstInvalidLine :
    splitAtChar '\n' " LDI A,1 \n# note\nNOP\nHLT".toList =
      [" LDI A,1 ".toList, "# note".toList] ++ "NOP".toList :: ["HLT".toList] ∧
    (∀ l ∈ [" LDI A,1 ".toList, "# note".toList],
      trim (stripComment l) = [] ∨ ∃ i, parseLine (trim (stripComment l)) = .ok i) ∧
    trim (stripComment "NOP".toList) ≠ [] ∧
    parseLine (trim (stripComment "NOP".toList)) = .error .unknownOpcode := by
  refine ⟨by decide, fun l h => ?_, by decide, rfl⟩
  rcases List.mem_cons.mp h with rfl | h
  · exact .inr ⟨_, rfl⟩
  · rw [List.mem_singleton.mp h]
    exact .inl rfl

/-- A source with only blank and comment-only lines, for the last clause of the same statement. -/
theorem witness_source_without_instructions :
    ∀ l ∈ splitAtChar '\n' " \n# note\n\n; more".toList, trim (stripComment l) = [] := by decide

theorem witness_ParsedProgramsHaveOneInstructionPerLine :
    parse "LDI A,1\n# note\n\nHLT" = .ok [.ldi .A 1, .hlt] := rfl

end Sys2Proof.Tests
end

