-- ==== Sys2Proof/Proofs/Scope.lean ====
section
/-! PROOFS. The statement of 00_scope.md: `mask_w` as a bitwise AND and as the unique residue in range (R9). -/

namespace Sys2Proof.Machine

/-- The other direction of `toNat_mask`: a number in range and congruent to `v` is the mask of `v`. -/
theorem eq_toNat_mask_of_emod_eq {w : WordLength} {v : Int} {n : Nat} (hn : n < w.modulus)
    (h : (n : Int) % (w.modulus : Int) = v % (w.modulus : Int)) : n = (mask w v).toNat := by
  rw [Int.emod_eq_of_lt (by omega) (by omega), ← toNat_mask] at h
  exact_mod_cast h

theorem mask_emod (w : WordLength) (v : Int) :
    ((mask w v).toNat : Int) % (w.modulus : Int) = v % (w.modulus : Int) := by
  rw [toNat_mask, Int.emod_emod]

theorem mask_mask (w : WordLength) (v : Int) : mask w (mask w v).toNat = mask w v :=
  mask_word (mask_lt w v)

theorem modulus_dvd_two_pow_16 (w : WordLength) : w.modulus ∣ 2 ^ 16 := by cases w <;> decide

theorem modulus_sub_one_lt (w : WordLength) : w.modulus - 1 < 2 ^ 16 := by cases w <;> decide

/-- `AND` with `2^w - 1` keeps the remainder modulo `2^w`, and the 16-bit pattern of `v` has the remainder of `v`
because `2^w` divides `2^16`. -/
theorem mask_eq_and (w : WordLength) (v : Int) :
    mask w v = BitVec.ofInt 16 v &&& BitVec.ofNat 16 (w.modulus - 1) := by
  have hpattern : ((BitVec.ofInt 16 v).toNat : Int) = v % ((2 ^ 16 : Nat) : Int) := by
    rw [BitVec.toNat_ofInt, Int.toNat_of_nonneg (Int.emod_nonneg v (by decide))]
  have hand : (BitVec.ofInt 16 v &&& BitVec.ofNat 16 (w.modulus - 1)).toNat =
      (BitVec.ofInt 16 v).toNat % w.modulus := by
    rw [BitVec.toNat_and, BitVec.toNat_ofNat, Nat.mod_eq_of_lt (modulus_sub_one_lt w), modulus_eq,
      Nat.and_two_pow_sub_one_eq_mod]
  apply BitVec.eq_of_toNat_eq
  apply Int.ofNat_inj.mp
  rw [hand, toNat_mask, Int.natCast_emod, hpattern,
    Int.emod_emod_of_dvd v (Int.natCast_dvd_natCast.mpr (modulus_dvd_two_pow_16 w))]

/-- Settles O1: each clause is one fact about `mask`, stated over `w.modulus`. -/
theorem maskIsTheUniqueResidueInRange : Obligations.MaskIsTheUniqueResidueInRange := by
  intro w v
  rw [← modulus_eq]
  exact ⟨mask_eq_and w v, mask_lt w v, mask_emod w v, fun _ => eq_toNat_mask_of_emod_eq, mask_mask w v⟩

end Sys2Proof.Machine
end

