-- ==== Sys2Proof/Proofs/State.lean ====
section
/-! PROOFS. The statement of 10_state.md: what a width change does to registers, cells and everything else (R33). -/

namespace Sys2Proof.Machine

/-- Masking a word drops its bits from `w` up: `toNat_mask` for a word, over natural numbers. -/
theorem toNat_mask_word (w : WordLength) (v : Word) : (mask w v.toNat).toNat = v.toNat % 2 ^ w.bits := by
  rw [← modulus_eq]
  exact_mod_cast toNat_mask w v.toNat

theorem bits_of_wordLengthOf {bits : Int} {w : WordLength} (h : wordLengthOf bits = some w) : (w.bits : Int) = bits := by
  unfold wordLengthOf at h
  split at h
  next h10 =>
    cases h
    exact h10.symm
  next =>
    split at h
    next h16 =>
      cases h
      exact h16.symm
    next => cases h

/-! ## `commitWidth` -/

section
variable (s : State) (w : WordLength)

@[simp] theorem State.IR_commitWidth : (s.commitWidth w).IR = s.IR := rfl
@[simp] theorem State.SF_commitWidth : (s.commitWidth w).SF = s.SF := rfl
@[simp] theorem State.OF_commitWidth : (s.commitWidth w).OF = s.OF := rfl
@[simp] theorem State.halted_commitWidth : (s.commitWidth w).halted = s.halted := rfl
@[simp] theorem State.cycle_commitWidth : (s.commitWidth w).cycle = s.cycle := rfl
@[simp] theorem State.bus_commitWidth : (s.commitWidth w).bus = s.bus := rfl
@[simp] theorem State.phase_commitWidth : (s.commitWidth w).phase = s.phase := rfl
@[simp] theorem State.mem_commitWidth :
    (s.commitWidth w).mem = Memory.writeImage w 0 s.prog (s.mem.maskCells w) := rfl
@[simp] theorem State.prog_commitWidth : (s.commitWidth w).prog = s.prog := rfl
@[simp] theorem State.wordLength_commitWidth : (s.commitWidth w).wordLength = w := rfl
@[simp] theorem State.displayBase_commitWidth : (s.commitWidth w).displayBase = s.displayBase := rfl
@[simp] theorem State.reg_commitWidth (r : RegName) : (s.commitWidth w).reg r = mask w (s.reg r).toNat := by
  cases r <;> rfl

theorem State.sameFlags_commitWidth : sameFlags s (s.commitWidth w) :=
  ⟨s.SF_commitWidth w, s.OF_commitWidth w⟩

end

/-- A cell after a width change: its entry's image word at the new width inside the program, its old word masked
outside. -/
theorem State.read_commitWidth {s : State} (h : s.mem.wf = true) (w : WordLength) (a : Nat) :
    (s.commitWidth w).mem.read a = ((s.prog[a]?).map (encodeImage w)).getD (mask w (s.mem.read a).toNat) := by
  have hrising := Memory.risingFrom_of_wf h
  rw [State.mem_commitWidth, Memory.read_writeImage w s.prog 0 (Memory.risingFrom_maskCells w hrising) a,
    if_pos (Nat.zero_le a), Nat.sub_zero, Memory.read_maskCells w hrising]

theorem State.read_commitWidth_image {s : State} (h : s.mem.wf = true) (w : WordLength) {a : Nat} {e : Entry}
    (he : s.prog[a]? = some e) : (s.commitWidth w).mem.read a = encodeImage w e := by
  rw [State.read_commitWidth h, he, Option.map_some, Option.getD_some]

theorem State.read_commitWidth_data {s : State} (h : s.mem.wf = true) (w : WordLength) {a : Nat}
    (ha : s.prog.length ≤ a) : (s.commitWidth w).mem.read a = mask w (s.mem.read a).toNat := by
  rw [State.read_commitWidth h, List.getElem?_eq_none ha, Option.map_none, Option.getD_none]

/-! ## `setWordLength` -/

/-- The one way `setWordLength` answers `done`: the width is supported, the stored program passes validation at it, and
the width is committed (45_host_commands.md R168). -/
theorem setWordLength_done {bits : Int} {s : State} (h : (setWordLength bits s).response = .done) :
    ∃ w, wordLengthOf bits = some w ∧ validateStore w 0 s.prog = .ok () ∧
      (setWordLength bits s).state = s.commitWidth w := by
  unfold setWordLength at h ⊢
  split at h
  next => cases h
  next w hw =>
    split at h
    next => cases h
    next hv => exact ⟨w, hw, hv, rfl⟩

/-- Settles O47: the state after a successful width change is `commitWidth` of the state before, and each clause is a
fact about `commitWidth`. -/
theorem widthChangeClipsAndRewritesTheImage : Obligations.WidthChangeClipsAndRewritesTheImage := by
  intro bits s hmem hdone
  obtain ⟨w, hw, -, hstate⟩ := setWordLength_done hdone
  simp only [hstate, State.wordLength_commitWidth]
  have hregs (r : RegName) : ((s.commitWidth w).reg r).toNat = (s.reg r).toNat % 2 ^ w.bits := by
    rw [State.reg_commitWidth, toNat_mask_word]
  have hdata (i : Nat) (hi : s.prog.length ≤ i) :
      ((s.commitWidth w).mem.read i).toNat = (s.mem.read i).toNat % 2 ^ w.bits := by
    rw [State.read_commitWidth_data hmem w hi, toNat_mask_word]
  exact ⟨bits_of_wordLengthOf hw, hregs, fun _ _ he => State.read_commitWidth_image hmem w he, hdata,
    s.sameFlags_commitWidth w, s.halted_commitWidth w, s.cycle_commitWidth w, s.IR_commitWidth w, s.bus_commitWidth w,
    s.phase_commitWidth w, s.prog_commitWidth w, s.displayBase_commitWidth w⟩

end Sys2Proof.Machine
end

