-- ==== Sys2Proof/Proofs/Memory.lean ====
section
/-! PROOFS. The statements of 20_memory.md: what the two memory operations do inside `[0, 64)` (R53, R54), and what they
and the two memory instructions raise outside it (R52). -/

namespace Sys2Proof.Machine

/-! ## A successful `MemWrite` -/

section
variable {s t : State} {a v : Int}

/-- `MemWrite` changes memory only. -/
theorem State.eq_setMem_of_memWrite (h : s.memWrite a v = .ok t) : t = s.setMem t.mem := by
  obtain ⟨-, rfl⟩ := State.memWrite_ok h
  rfl

theorem State.read_of_memWrite (hwf : s.mem.wf = true) (h : s.memWrite a v = .ok t) (b : Nat) :
    t.mem.read b = if b = a.toNat then mask s.wordLength v else s.mem.read b := by
  obtain ⟨-, rfl⟩ := State.memWrite_ok h
  exact Memory.read_write (Memory.risingFrom_of_wf hwf) a.toNat (mask s.wordLength v) b

/-- `MemRead` at the address of a `MemWrite` answers the masked value (20_memory.md R53, R54). -/
theorem State.memRead_of_memWrite (hwf : s.mem.wf = true) (h : s.memWrite a v = .ok t) :
    t.memRead a = .ok (mask s.wordLength v) := by
  obtain ⟨⟨h0, h1⟩, -⟩ := State.memWrite_ok h
  rw [State.memRead_of_inRange t h0 h1, State.read_of_memWrite hwf h, if_pos rfl]

theorem State.read_of_memWrite_ne (hwf : s.mem.wf = true) (h : s.memWrite a v = .ok t) {b : Nat} (hb : b ≠ a.toNat) :
    t.mem.read b = s.mem.read b := by
  rw [State.read_of_memWrite hwf h, if_neg hb]

end

/-- Settles O18: both instructions pass on the fault of the memory operation they make. -/
theorem outOfRangeAddressFaults : Obligations.OutOfRangeAddressFaults := by
  intro r a s ha
  exact ⟨execLoad_of_outOfRange r s ha, execStore_of_outOfRange r s ha, s.memRead_of_outOfRange ha,
    fun v => s.memWrite_of_outOfRange v ha⟩

/-- Settles O19: out of range both operations raise; in range the write succeeds, and the canonical form makes the
listed cells read as written. -/
theorem memoryReadsWhatWasWritten : Obligations.MemoryReadsWhatWasWritten := by
  intro s a v
  constructor
  · intro ha
    exact ⟨s.memRead_of_outOfRange ha, s.memWrite_of_outOfRange v ha⟩
  · intro h0 h1 hwf
    have hw := s.memWrite_of_inRange v h0 h1
    exact ⟨s.memRead_of_inRange h0 h1, _, hw, State.eq_setMem_of_memWrite hw, State.memRead_of_memWrite hwf hw,
      fun _ => State.read_of_memWrite_ne hwf hw⟩

end Sys2Proof.Machine
end

