-- ==== Sys2Proof/Proofs/Encoding.lean ====
section
/-! PROOFS. The statements of 30_encoding.md: the image word as its tag over its payload (R80 to R85), and where the
assembler stops (R90, R94). -/

namespace Sys2Proof.Machine

/-! ## Bit fields -/

theorem append_inj_iff {m n : Nat} {x x' : BitVec m} {y y' : BitVec n} : x ++ y = x' ++ y' ↔ x = x' ∧ y = y' := by
  constructor
  · intro h
    have hlow : y = y' := by
      rw [← BitVec.setWidth_append_eq_right (a := x) (b := y), h, BitVec.setWidth_append_eq_right]
    subst hlow
    exact ⟨(BitVec.append_left_inj y).mp h, rfl⟩
  · rintro ⟨rfl, rfl⟩
    rfl

theorem two_pow_ne_zero (k : Nat) : ((2 ^ k : Nat) : Int) ≠ 0 :=
  Int.natCast_ne_zero.mpr (Nat.ne_of_gt (Nat.two_pow_pos k))

theorem ofInt_eq_ofInt_iff (k : Nat) (a b : Int) :
    BitVec.ofInt k a = BitVec.ofInt k b ↔ a % (2 ^ k : Nat) = b % (2 ^ k : Nat) := by
  have ha := Int.emod_nonneg a (two_pow_ne_zero k)
  have hb := Int.emod_nonneg b (two_pow_ne_zero k)
  rw [← BitVec.toNat_inj, BitVec.toNat_ofInt, BitVec.toNat_ofInt]
  omega

theorem append_ofInt_inj_iff {m : Nat} {x x' : BitVec m} (k : Nat) (a b : Int) :
    x ++ BitVec.ofInt k a = x' ++ BitVec.ofInt k b ↔ x = x' ∧ a % (2 ^ k : Nat) = b % (2 ^ k : Nat) := by
  rw [append_inj_iff, ofInt_eq_ofInt_iff]

theorem setWidth_ofInt {k n : Nat} (h : k ≤ n) (a : Int) : (BitVec.ofInt n a).setWidth k = BitVec.ofInt k a := by
  have hdvd : ((2 ^ k : Nat) : Int) ∣ (2 ^ n : Nat) := Int.natCast_dvd_natCast.mpr (Nat.pow_dvd_pow 2 h)
  have hn := Int.emod_nonneg a (two_pow_ne_zero n)
  have hk := Int.emod_nonneg a (two_pow_ne_zero k)
  apply BitVec.eq_of_toNat_eq
  apply Int.ofNat_inj.mp
  rw [BitVec.toNat_setWidth, BitVec.toNat_ofInt, BitVec.toNat_ofInt, Int.natCast_emod, Int.toNat_of_nonneg hn,
    Int.toNat_of_nonneg hk, Int.emod_emod_of_dvd a hdvd]

theorem lowMask_eq_twoPow_sub_one (k : Nat) : lowMask k = BitVec.twoPow 16 k - 1 := rfl

theorem toNat_lowMask {k : Nat} (h : k < 16) : (lowMask k).toNat = 2 ^ k - 1 := by
  have hle : (1 : Word) ≤ BitVec.twoPow 16 k := by
    rw [BitVec.le_def, BitVec.toNat_twoPow_of_lt h]
    exact Nat.one_le_two_pow
  rw [lowMask_eq_twoPow_sub_one, BitVec.toNat_sub_of_le hle, BitVec.toNat_twoPow_of_lt h]
  rfl

/-- `AND` with `2^k - 1` keeps the low `k` bits. -/
theorem and_lowMask {k : Nat} (h : k < 16) (v : Word) : v &&& lowMask k = (v.setWidth k).setWidth 16 := by
  apply BitVec.eq_of_toNat_eq
  rw [BitVec.toNat_and, toNat_lowMask h, Nat.and_two_pow_sub_one_eq_mod, BitVec.toNat_setWidth, BitVec.toNat_setWidth]
  have := Nat.mod_le v.toNat (2 ^ k)
  omega

theorem sel_inj {r q : Reg} : r.sel = q.sel ↔ r = q := by cases r <;> cases q <;> decide

/-! ## Tags -/

theorem ofTag_tag (op : Opcode) : Opcode.ofTag op.tag = some op := by cases op <;> decide

theorem tag_of_ofTag {t : BitVec 4} {op : Opcode} (h : Opcode.ofTag t = some op) : op.tag = t := by
  simpa using List.find?_some h

theorem ofTag_eq_none_iff : ∀ t : BitVec 4, Opcode.ofTag t = none ↔ t.toNat = 0 ∨ (7 ≤ t.toNat ∧ t.toNat ≤ 14) := by
  decide

/-! ## The image word (R80) -/

theorem bits_bounds (w : WordLength) : 5 < w.bits ∧ w.bits ≤ 16 := by cases w <;> decide

/-- R80: the tag over the payload, which is confined to the `w - 4` bits below the tag. -/
theorem encodeImage_eq_append (w : WordLength) {e : Entry} {op : Opcode} (h : Opcode.ofTag e.op = some op) :
    encodeImage w e = (op.tag ++ (payload w op e).setWidth (w.bits - 4)).setWidth 16 := by
  have hw := bits_bounds w
  simp only [encodeImage, h]
  rw [and_lowMask (by omega), BitVec.setWidth_append_eq_shiftLeft_setWidth_or]

/-- Bits `w-1` to `w-4` of a word that is a tag over `w - 4` bits are the tag. -/
theorem topBits_append (w : WordLength) (t : BitVec 4) (p : BitVec (w.bits - 4)) :
    ((t ++ p).setWidth 16 >>> (w.bits - 4)).setWidth 4 = t := by
  have hw := bits_bounds w
  apply BitVec.eq_of_getLsbD_eq
  intro i hi
  have hword : w.bits - 4 + i < 16 := by omega
  simp [BitVec.getLsbD_append, hi, hword]

theorem topBits_eq_ofNat (w : WordLength) (word : Word) :
    (word >>> (w.bits - 4)).setWidth 4 = BitVec.ofNat 4 (word.toNat / 2 ^ (w.bits - 4)) := by
  apply BitVec.eq_of_toNat_eq
  rw [BitVec.toNat_setWidth, BitVec.toNat_ushiftRight, BitVec.toNat_ofNat, Nat.shiftRight_eq_div_pow]

theorem decodeTag_encodeImage (w : WordLength) {e : Entry} {op : Opcode} (h : Opcode.ofTag e.op = some op) :
    decodeTag w (encodeImage w e) = some op := by
  rw [encodeImage_eq_append w h, decodeTag, topBits_append, ofTag_tag]

/-- Settles O4: the payload of an image word lies below its tag, and the tag table is read off. -/
theorem opcodeTagSurvivesTheImage : Obligations.OpcodeTagSurvivesTheImage := by
  refine ⟨fun w e op h => ⟨decodeTag_encodeImage w h, tag_of_ofTag h⟩, fun w word => ?_, by decide, ofTag_eq_none_iff⟩
  rw [decodeTag, topBits_eq_ofNat]

/-! ## The payloads (R81) -/

section
variable (w : WordLength) (e : Entry)

theorem payload_ldi : payload w .ldi e = (e.r ++ e.imm.setWidth (w.bits - 5)).setWidth 16 := by
  have hw := bits_bounds w
  rw [BitVec.setWidth_append_eq_shiftLeft_setWidth_or, ← and_lowMask (by omega)]
  rfl

theorem payload_add : payload w .add e = (e.r ++ e.s).setWidth 16 :=
  BitVec.setWidth_append_eq_shiftLeft_setWidth_or.symm

/-- The payload `STORE`, `LOAD` and `JZ` share: the selector in bit 6, over the address. -/
def selectedAddress : Word := (e.r ++ e.addr).setWidth 16

theorem payload_store : payload w .store e = selectedAddress e :=
  BitVec.setWidth_append_eq_shiftLeft_setWidth_or.symm

theorem payload_load : payload w .load e = selectedAddress e := payload_store w e

theorem payload_jz : payload w .jz e = selectedAddress e := payload_store w e

theorem payload_jmp : payload w .jmp e = e.addr.setWidth 16 := rfl

end

theorem ofTag_op_encodeEntry (i : Instr) : Opcode.ofTag (encodeEntry i).op = some i.opcode := by
  cases i <;> rfl

theorem payload_encodeEntry_ldi (w : WordLength) (r : Reg) (imm : Int) :
    payload w .ldi (encodeEntry (.ldi r imm)) = (r.sel ++ BitVec.ofInt (w.bits - 5) imm).setWidth 16 := by
  have hw := bits_bounds w
  rw [payload_ldi, ← setWidth_ofInt (n := 16) (by omega) imm]
  rfl

/-- A field kept in a word, read again at `k` bits more than its own width. -/
theorem setWidth_field {n : Nat} (k : Nat) (h : k + n ≤ 16) (x : BitVec n) :
    (x.setWidth 16).setWidth (k + n) = 0#k ++ x := by
  rw [BitVec.setWidth_setWidth_of_le x h, BitVec.setWidth_eq_append (Nat.le_add_left n k)]
  apply BitVec.eq_of_toNat_eq
  simp

theorem setWidth_field_same {n : Nat} (h : n ≤ 16) (x : BitVec n) : (x.setWidth 16).setWidth n = x := by
  rw [BitVec.setWidth_setWidth_of_le x h, BitVec.setWidth_eq]

/-! ## The formats at 16 bits (R82) -/

theorem encode_w16 (i : Instr) :
    encode .w16 i = i.opcode.tag ++ (payload .w16 i.opcode (encodeEntry i)).setWidth 12 := by
  rw [encode, encodeImage_eq_append .w16 (ofTag_op_encodeEntry i)]
  exact BitVec.setWidth_eq _

theorem encode_w16_ldi (r : Reg) (imm : Int) :
    encode .w16 (.ldi r imm) = 1#4 ++ r.sel ++ BitVec.ofInt 11 imm := by
  rw [encode_w16, Instr.opcode, payload_encodeEntry_ldi, BitVec.append_assoc]
  exact congrArg (1#4 ++ ·) (setWidth_field_same (by decide) (r.sel ++ BitVec.ofInt 11 imm))

theorem encode_w16_add (d s : Reg) : encode .w16 (.add d s) = 2#4 ++ 0#10 ++ d.sel ++ s.sel := by
  rw [encode_w16, Instr.opcode, payload_add, setWidth_field (n := 2) 10 (by decide), BitVec.append_assoc',
    BitVec.append_assoc']
  rfl

theorem encode_w16_of_selectedAddress {i : Instr}
    (h : payload .w16 i.opcode (encodeEntry i) = selectedAddress (encodeEntry i)) :
    encode .w16 i = i.opcode.tag ++ 0#5 ++ (encodeEntry i).r ++ (encodeEntry i).addr := by
  rw [encode_w16, h, selectedAddress, setWidth_field (n := 7) 5 (by decide), BitVec.append_assoc',
    BitVec.append_assoc']
  rfl

theorem encode_w16_jmp (a : Int) : encode .w16 (.jmp a) = 5#4 ++ 0#6 ++ BitVec.ofInt 6 a := by
  rw [encode_w16, Instr.opcode, payload_jmp, setWidth_field (n := 6) 6 (by decide), BitVec.append_assoc']
  rfl

/-- Settles O5: each format is the tag over the payload of R81, its fields set apart. -/
theorem imageFormatsAt16Bits : Obligations.ImageFormatsAt16Bits := by
  intro r s imm a
  exact ⟨encode_w16_ldi r imm, encode_w16_add r s, encode_w16_of_selectedAddress (payload_store _ _),
    encode_w16_of_selectedAddress (payload_load _ _), encode_w16_jmp a,
    encode_w16_of_selectedAddress (payload_jz _ _), encode_w16 .hlt⟩

/-! ## The formats at 10 bits (R83) -/

theorem encode_w10 (i : Instr) :
    encode .w10 i = 0#6 ++ i.opcode.tag ++ (payload .w10 i.opcode (encodeEntry i)).setWidth 6 := by
  rw [encode, encodeImage_eq_append .w10 (ofTag_op_encodeEntry i), BitVec.append_assoc]
  exact BitVec.setWidth_eq_append (v := 10) (by decide)

theorem encode_w10_ldi (r : Reg) (imm : Int) :
    encode .w10 (.ldi r imm) = 0#6 ++ 1#4 ++ r.sel ++ BitVec.ofInt 5 imm := by
  rw [encode_w10, Instr.opcode, payload_encodeEntry_ldi, BitVec.append_assoc (x₂ := r.sel)]
  exact congrArg (0#6 ++ 1#4 ++ ·) (setWidth_field_same (by decide) (r.sel ++ BitVec.ofInt 5 imm))

theorem encode_w10_add (d s : Reg) : encode .w10 (.add d s) = 0#6 ++ 2#4 ++ 0#4 ++ d.sel ++ s.sel := by
  rw [encode_w10, Instr.opcode, payload_add, setWidth_field (n := 2) 4 (by decide), BitVec.append_assoc',
    BitVec.append_assoc']
  rfl

/-- The selector, in bit 6, is not among the six bits below a ten-bit tag. -/
theorem encode_w10_of_selectedAddress {i : Instr}
    (h : payload .w10 i.opcode (encodeEntry i) = selectedAddress (encodeEntry i)) :
    encode .w10 i = 0#6 ++ i.opcode.tag ++ (encodeEntry i).addr := by
  rw [encode_w10, h, selectedAddress, BitVec.setWidth_setWidth_of_le _ (by decide), BitVec.setWidth_append_eq_right]

theorem encode_w10_jmp (a : Int) : encode .w10 (.jmp a) = 0#6 ++ 5#4 ++ BitVec.ofInt 6 a := by
  rw [encode_w10, Instr.opcode, payload_jmp, setWidth_field_same (by decide)]
  rfl

/-- Settles O6: each format is the tag over the payload of R81, cut to six bits. -/
theorem imageFormatsAt10Bits : Obligations.ImageFormatsAt10Bits := by
  intro r s imm a
  exact ⟨encode_w10_ldi r imm, encode_w10_add r s, encode_w10_of_selectedAddress (payload_store _ _),
    encode_w10_of_selectedAddress (payload_load _ _), encode_w10_jmp a,
    encode_w10_of_selectedAddress (payload_jz _ _), encode_w10 .hlt⟩

/-! ## What the image keeps of the operands (R84) -/

theorem encode_ldi_eq_iff (w : WordLength) (r q : Reg) (a b : Int) :
    encode w (.ldi r a) = encode w (.ldi q b) ↔
      r = q ∧ a % (2 ^ (w.bits - 5) : Nat) = b % (2 ^ (w.bits - 5) : Nat) := by
  cases w with
  | w10 => rw [encode_w10_ldi, encode_w10_ldi, append_ofInt_inj_iff, BitVec.append_right_inj, sel_inj]; rfl
  | w16 => rw [encode_w16_ldi, encode_w16_ldi, append_ofInt_inj_iff, BitVec.append_right_inj, sel_inj]; rfl

theorem encode_w10_address_eq_iff {i j : Instr} {a b : Int}
    (hi : encode .w10 i = 0#6 ++ i.opcode.tag ++ BitVec.ofInt 6 a)
    (hj : encode .w10 j = 0#6 ++ i.opcode.tag ++ BitVec.ofInt 6 b) :
    encode .w10 i = encode .w10 j ↔ a % 64 = b % 64 := by
  rw [hi, hj, BitVec.append_right_inj, ofInt_eq_ofInt_iff]
  rfl

/-- Settles O9: equal words have equal fields, and a field holds its operand modulo a power of two. -/
theorem imageLosesOperandBits : Obligations.ImageLosesOperandBits := by
  refine ⟨encode_ldi_eq_iff, fun r q a b => ?_⟩
  obtain ⟨-, -, hstore, hload, -, hjz, -⟩ := imageFormatsAt10Bits r r a a
  obtain ⟨-, -, hstore', hload', -, hjz', -⟩ := imageFormatsAt10Bits q q b b
  exact ⟨encode_w10_address_eq_iff hstore hstore', encode_w10_address_eq_iff hload hload',
    encode_w10_address_eq_iff hjz hjz'⟩

/-! ## The lines of a source (R90) -/

section
variable (sep : Char)

theorem splitAtChar_ne_nil (cs : List Char) : splitAtChar sep cs ≠ [] := by
  cases cs with
  | nil => simp [splitAtChar]
  | cons c cs =>
    rw [splitAtChar]
    split
    · simp
    · split <;> simp

theorem splitAtChar_sep (cs : List Char) : splitAtChar sep (sep :: cs) = [] :: splitAtChar sep cs := by
  have hne := splitAtChar_ne_nil sep cs
  rw [splitAtChar]
  split
  next hnil => exact absurd hnil hne
  next p ps hcons => rw [if_pos rfl, hcons]

/-- A character other than the separator joins the first piece. -/
theorem splitAtChar_cons_of_ne {c : Char} (h : c ≠ sep) (cs : List Char) :
    ∃ p ps, splitAtChar sep cs = p :: ps ∧ splitAtChar sep (c :: cs) = (c :: p) :: ps := by
  obtain ⟨p, ps, hcs⟩ := List.exists_cons_of_ne_nil (splitAtChar_ne_nil sep cs)
  exact ⟨p, ps, hcs, by rw [splitAtChar, hcs]; exact if_neg h⟩

theorem intercalate_splitAtChar (cs : List Char) : List.intercalate [sep] (splitAtChar sep cs) = cs := by
  induction cs with
  | nil => rfl
  | cons c cs ih =>
    by_cases h : c = sep
    · subst h
      rw [splitAtChar_sep, List.intercalate_cons_of_ne_nil (splitAtChar_ne_nil c cs), ih]
      rfl
    · obtain ⟨p, ps, hcs, hcons⟩ := splitAtChar_cons_of_ne sep h cs
      rw [hcons, List.intercalate_cons_cons_left, ← hcs, ih]

theorem sep_not_mem_splitAtChar (cs : List Char) : ∀ l ∈ splitAtChar sep cs, sep ∉ l := by
  induction cs with
  | nil => simp [splitAtChar]
  | cons c cs ih =>
    by_cases h : c = sep
    · subst h
      simpa [splitAtChar_sep] using ih
    · obtain ⟨p, ps, hcs, hcons⟩ := splitAtChar_cons_of_ne sep h cs
      rw [hcs] at ih
      simpa [hcons, Ne.symm h] using ih

end

/-! ## The first invalid line (R94) -/

section
variable {n : Nat} {l : List Char} {ls : List (List Char)}

theorem parseLines_blank (h : trim (stripComment l) = []) : parseLines n (l :: ls) = parseLines (n + 1) ls := by
  rw [parseLines, h]

theorem parseLines_invalid {why : ParseReason} (h : trim (stripComment l) ≠ [])
    (hline : parseLine (trim (stripComment l)) = .error why) :
    parseLines n (l :: ls) = .error ⟨some n, why⟩ := by
  obtain ⟨c, cs, hl⟩ := List.exists_cons_of_ne_nil h
  rw [hl] at hline
  simp only [parseLines, hl, hline]

theorem parseLines_valid {i : Instr} (h : trim (stripComment l) ≠ [])
    (hline : parseLine (trim (stripComment l)) = .ok i) :
    parseLines n (l :: ls) = (parseLines (n + 1) ls).map (i :: ·) := by
  obtain ⟨c, cs, hl⟩ := List.exists_cons_of_ne_nil h
  rw [hl] at hline
  simp only [parseLines, hl, hline]
  cases parseLines (n + 1) ls <;> rfl

/-- A blank or valid line passes on the error of the lines after it. -/
theorem parseLines_error_of_tail {e : ParseError}
    (hl : trim (stripComment l) = [] ∨ ∃ i, parseLine (trim (stripComment l)) = .ok i)
    (hls : parseLines (n + 1) ls = .error e) : parseLines n (l :: ls) = .error e := by
  by_cases hblank : trim (stripComment l) = []
  · rw [parseLines_blank hblank, hls]
  · obtain ⟨i, hi⟩ := hl.resolve_left hblank
    rw [parseLines_valid hblank hi, hls]
    rfl

end

theorem parseLines_first_invalid {before : List (List Char)} {line : List Char} {why : ParseReason} (n : Nat)
    (after : List (List Char))
    (hbefore : ∀ l ∈ before, trim (stripComment l) = [] ∨ ∃ i, parseLine (trim (stripComment l)) = .ok i)
    (hne : trim (stripComment line) ≠ []) (hline : parseLine (trim (stripComment line)) = .error why) :
    parseLines n (before ++ line :: after) = .error ⟨some (before.length + n), why⟩ := by
  induction before generalizing n with
  | nil => rw [List.nil_append, List.length_nil, Nat.zero_add, parseLines_invalid hne hline]
  | cons l ls ih =>
    obtain ⟨hl, hls⟩ := List.forall_mem_cons.mp hbefore
    rw [List.cons_append, parseLines_error_of_tail hl (ih (n + 1) hls), List.length_cons, Nat.add_right_comm,
      Nat.add_assoc]

theorem parseLines_all_blank {ls : List (List Char)} (n : Nat) (h : ∀ l ∈ ls, trim (stripComment l) = []) :
    parseLines n ls = .ok [] := by
  induction ls generalizing n with
  | nil => rfl
  | cons l ls ih =>
    obtain ⟨hl, hls⟩ := List.forall_mem_cons.mp h
    rw [parseLines_blank hl, ih (n + 1) hls]

/-- Settles O50: the cut by induction on the text, the two failures by induction on the lines before. -/
theorem parserNamesTheFirstInvalidLine : Obligations.ParserNamesTheFirstInvalidLine := by
  refine ⟨fun text => ⟨intercalate_splitAtChar '\n' text, sep_not_mem_splitAtChar '\n' text⟩, ?_, ?_⟩
  · intro text before line after why hcut hbefore hne hline
    rw [parse, hcut, parseLines_first_invalid 1 after hbefore hne hline]
  · intro text hblank
    rw [parse, parseLines_all_blank 1 hblank]

end Sys2Proof.Machine
end

