-- ==== Sys2Proof/Proofs/StepCycle.lean ====
section
/-! PROOFS. The statements of 40_step_cycle.md: the two non-executing steps (R101, R102), the next PC (R107), the cycle
count (R109) and the micro-step record (R106, R112, R113). -/

namespace Sys2Proof.Machine

/-! ## The two steps that execute nothing (R101, R102) -/

theorem stepReport_of_halted {s : State} (h : s.halted = true) : stepReport s = .halted :=
  if_pos h

theorem stepReport_of_fallThrough {s : State} (h : s.halted = false) (hpc : s.prog.length ≤ s.PC.toNat) :
    stepReport s = .noInstruction s.halt := by
  have hentry := (no_entry_iff s).mpr hpc
  simp only [stepReport, h, Bool.false_eq_true, if_false, hentry]

/-- Settles O24: the halted check comes before everything else. -/
theorem haltedStepChangesNothing : Obligations.HaltedStepChangesNothing := by
  intro s hhalted
  have hreport := stepReport_of_halted hhalted
  exact ⟨hreport, by rw [step, hreport]; rfl⟩

/-- Settles O25: the state reported is `State.halt` of the state before. -/
theorem fallThroughHaltsAndChangesNothingElse : Obligations.FallThroughHaltsAndChangesNothingElse := by
  intro s hrunning hpc
  have hreport := stepReport_of_fallThrough hrunning hpc
  exact ⟨hreport, by rw [step, hreport]; rfl⟩

/-! ## The fetched state -/

theorem fetch_cycle {e : Entry} {s t : State} (h : fetch e s = .ok t) : t.cycle = s.cycle := by
  obtain ⟨-, rfl⟩ := fetch_ok h
  simp

/-- The bus values of a fetch: `PC` and the memory word there (R112). -/
theorem fetch_bus {e : Entry} {s t : State} (h : fetch e s = .ok t) :
    t.bus = accessTrace s.PC.toNat (s.mem.read s.PC.toNat) s.draws := by
  obtain ⟨-, rfl⟩ := fetch_ok h
  simp

/-- The table of R107 reads only what a fetch leaves alone: `PC` and the general registers. -/
theorem nextPC_fetch {e : Entry} {s t : State} (h : fetch e s = .ok t) (i : Instr) : nextPC i t = nextPC i s := by
  cases i with
  | ldi r imm => simp only [nextPC, fetch_PC h]
  | add d src => simp only [nextPC, fetch_PC h]
  | store r a => simp only [nextPC, fetch_PC h]
  | load r a => simp only [nextPC, fetch_PC h]
  | jmp a => rfl
  | jz r a => simp only [nextPC, fetch_PC h, fetch_gpr h]
  | hlt => simp only [nextPC, fetch_PC h]

/-! ## The next PC (R107) -/

/-- Before retirement, `PC` of an executed step is the table's next PC. -/
theorem ExecutedStep.pc {s t : State} {e : Entry} {i : Instr} {s1 s2 : State} (x : ExecutedStep s t e i s1 s2) :
    (s2.PC.toNat : Int) = nextPC i s := by
  have hvalid : i.wellFormed s1.wordLength = true := by rw [fetch_wordLength x.fetched]; exact x.valid
  have hpc : s1.PC.toNat < memorySize := by rw [fetch_PC x.fetched]; exact (fetch_ok x.fetched).1
  rw [exec_pc x.executed hvalid hpc, nextPC_fetch x.fetched]

/-- From an instruction inside the memory, the next PC is at most one past the last address. -/
theorem nextPC_le {i : Instr} {s : State} (hv : i.wellFormed s.wordLength = true) (hpc : s.PC.toNat < memorySize) :
    nextPC i s ≤ (memorySize : Int) := by
  have hnext : (s.PC.toNat : Int) + 1 ≤ memorySize := by omega
  cases i with
  | ldi r imm => exact hnext
  | add d src => exact hnext
  | store r a => exact hnext
  | load r a => exact hnext
  | jmp a =>
    rw [wellFormed_jmp, addressInRange_iff] at hv
    exact Int.le_of_lt hv.2
  | jz r a =>
    rw [wellFormed_jz, addressInRange_iff] at hv
    simp only [nextPC]
    split
    · exact Int.le_of_lt hv.2
    · exact hnext
  | hlt => exact Int.ofNat_le.mpr (Nat.le_of_lt hpc)

/-- Settles O27: the meaning writes the table's next PC, which the re-mask of R108 keeps since it is at most 64. -/
theorem stepWritesTheNextPcOfTheTable : Obligations.StepWritesTheNextPcOfTheTable := by
  intro s t i _ hruns hstep
  obtain ⟨e, s1, s2, x⟩ := executed_of_runs hruns hstep
  have hle : (s2.PC.toNat : Int) ≤ memorySize := x.pc ▸ nextPC_le x.valid (fetch_ok x.fetched).1
  rw [x.retired, retire_PC, mask_address _ (Int.natCast_nonneg _) hle, x.pc]

/-! ## The cycle count (R109) -/

/-- Only retirement counts. -/
theorem ExecutedStep.cycle {s t : State} {e : Entry} {i : Instr} {s1 s2 : State} (x : ExecutedStep s t e i s1 s2) :
    t.cycle = s.cycle + 1 := by
  obtain ⟨-, -, hcycle, -⟩ := exec_keeps x.executed
  rw [x.retired, retire_cycle, hcycle, fetch_cycle x.fetched]

/-- Settles O28: one case per kind of completed step. -/
theorem cycleCountsExecutedSteps : Obligations.CycleCountsExecutedSteps := by
  intro s t hstep
  rcases step_cases hstep with ⟨hhalted, rfl⟩ | ⟨-, hentry, rfl⟩ | ⟨e, i, s1, s2, x⟩
  · rw [if_pos (.inl hhalted)]
  · rw [if_pos (.inr ((no_entry_iff s).mp hentry)), State.cycle_halt]
  · have hexecutes : ¬(s.halted = true ∨ s.prog.length ≤ s.PC.toNat) := by
      simp [← no_entry_iff, x.running, x.entry]
    rw [if_neg hexecutes, x.cycle]

/-! ## The micro-steps after the fetch (R106, R112, R113) -/

section
variable (i : Instr) (before after : State)

theorem kinds_executeSteps : (executeSteps i before after).map (·.kind) =
    if i.opcode = .store then [Phase.execute, Phase.writeback] else [Phase.execute] := by
  cases i <;> rfl

/-- The first of them is the execute micro-step, for every instruction. -/
theorem executeSteps_zero : (executeSteps i before after)[0]? =
    some ⟨.execute, executeTrace i before after, some ⟨touched i, Config.freeActionText before.draws⟩⟩ := by
  cases i <;> rfl

/-- Whatever came before, the last of them leaves the bus trace that the state keeps. -/
theorem getLast?_executeSteps (m : MicroStep) :
    (m :: executeSteps i before after).getLast?.map (·.trace) = some after.bus := by
  cases i <;> rfl

end

theorem executeTrace_store (r : Reg) (a : Int) (before after : State) :
    executeTrace (.store r a) before after = accessTrace a.toNat (before.gpr r) before.draws := rfl

theorem writeback_bus {r : Reg} {a : Int} {s t : State} (h : exec (.store r a) s = .next t) :
    t.bus = accessTrace a.toNat (s.gpr r) (s.draws + 1) := by
  obtain ⟨-, rfl⟩ := execStore_next h
  simp [storeExecute]

theorem executeTrace_load {r : Reg} {a : Int} {s t : State} (h : exec (.load r a) s = .next t) :
    executeTrace (.load r a) s t = accessTrace a.toNat (s.mem.read a.toNat) s.draws := by
  obtain ⟨-, rfl⟩ := execLoad_next h
  simp [executeTrace]

/-! ## The record of an executed step -/

/-- The record a machine at the instruction `i` reports: the fetch, then the micro-steps of `i`. -/
theorem executed_of_report {s t : State} {i : Instr} {rec : List MicroStep} (hruns : runs s i)
    (hreport : stepReport s = .ok t rec) : ∃ e s1 s2, ExecutedStep s t e i s1 s2 ∧
      rec = ⟨.fetch, s1.bus, none⟩ :: executeSteps i s1 s2 := by
  have hstep : step s = .next t := by rw [step, hreport]; rfl
  obtain ⟨e, s1, s2, x⟩ := executed_of_runs hruns hstep
  rw [stepReport_of_executed x] at hreport
  cases hreport
  exact ⟨e, s1, s2, x, rfl⟩

/-- Settles O30: the record is the fetch followed by `executeSteps`, and each bus value is that of the state the
micro-step leaves. -/
theorem executedStepsRecordTheirMicroSteps : Obligations.ExecutedStepsRecordTheirMicroSteps := by
  intro s t i rec _ hruns hreport bus touches
  obtain ⟨e, s1, s2, x, hrec⟩ := executed_of_report hruns hreport
  have hexecute : rec[1]? =
      some ⟨.execute, executeTrace i s1 s2, some ⟨touched i, Config.freeActionText s1.draws⟩⟩ := by
    rw [hrec, List.getElem?_cons_succ, executeSteps_zero]
  have htouches : touches (touched i) := by
    simp only [touches, hexecute, Option.bind_some, Option.map_some]
  have hbus : bus 1 = some ((executeTrace i s1 s2).AB, (executeTrace i s1 s2).DB) := by
    simp only [bus, hexecute, Option.map_some]
  refine ⟨?kinds, ?fetch, ?ldi, ?add, ?load, ?store, ?jmp, ?jz, ?hlt, ?last⟩
  case kinds =>
    rw [hrec, List.map_cons, kinds_executeSteps]
    split <;> rfl
  case fetch =>
    simp only [bus, hrec, List.getElem?_cons_zero, Option.map_some, fetch_bus x.fetched, accessTrace]
  case ldi => rintro r imm rfl; exact htouches
  case add => rintro d src rfl; exact htouches
  case load =>
    rintro r a rfl
    rw [executeTrace_load x.executed, fetch_mem x.fetched] at hbus
    exact ⟨htouches, hbus⟩
  case store =>
    rintro r a rfl
    have hwriteback : bus 2 = some (s2.bus.AB, s2.bus.DB) := by simp only [bus, hrec]; rfl
    rw [executeTrace_store, fetch_gpr x.fetched] at hbus
    rw [writeback_bus x.executed, fetch_gpr x.fetched] at hwriteback
    exact ⟨htouches, hbus, hwriteback⟩
  case jmp => rintro a rfl; exact htouches
  case jz => rintro r a rfl; exact htouches
  case hlt => rintro rfl; exact htouches
  case last => rw [hrec, getLast?_executeSteps, x.retired, retire_bus]

end Sys2Proof.Machine
end

section
/-! PROOFS. The statements of 41_ldi_add.md about `ADD`: the masked sum and both flags (R122 to R124), and a register
added to itself (R125). -/

namespace Sys2Proof.Machine

/-! ## The masked sum and its flags (R122 to R124) -/

section
variable (w : WordLength) (x y : Word)

theorem half_eq : w.half = 2 ^ (w.bits - 1) := by cases w <;> rfl

theorem modulus_eq_two_mul_half : w.modulus = 2 * w.half := by cases w <;> rfl

theorem toNat_maskedSum : (maskedSum w x y).toNat = (x.toNat + y.toNat) % 2 ^ w.bits := by
  rw [← modulus_eq]
  exact_mod_cast toNat_mask w (fullSum x y)

theorem maskedSum_lt : (maskedSum w x y).toNat < w.modulus := mask_lt w _

/-- Masking loses something exactly when the full sum does not fit in `w` bits. -/
theorem carryOut_iff : carryOut w x y = true ↔ 2 ^ w.bits ≤ x.toNat + y.toNat := by
  rw [carryOut, bne_iff_ne, toNat_maskedSum, fullSum, Ne, Nat.mod_eq_iff_lt (Nat.ne_of_gt (Nat.two_pow_pos _)),
    Nat.not_lt]

end

/-- The two readings of `SF` in R123: the sign bit is set exactly when the signed value is negative. -/
theorem signBit_iff_signedValue_neg {w : WordLength} {v : Word} (h : v.toNat < w.modulus) :
    signBit w v = true ↔ signedValue w v < 0 := by
  unfold signBit signedValue
  split
  next hset => exact iff_of_true hset (by omega)
  next hclear => exact iff_of_false hclear (by omega)

/-! ## The state after `ADD` (R122) -/

section
variable {d src : Reg} {s t : State}

/-- If `ADD` answers a next state, this is the state. -/
theorem execAdd_next (h : exec (.add d src) s = .next t) :
    t = (((s.writeResult d (maskedSum s.wordLength (s.gpr d) (s.gpr src))).updateFlags
      (maskedSum s.wordLength (s.gpr d) (s.gpr src))
      (carryOut s.wordLength (s.gpr d) (s.gpr src))).recordFree .execute).advance :=
  (Host.Outcome.next.inj h).symm

theorem execAdd_gpr (h : exec (.add d src) s = .next t) :
    t.gpr d = maskedSum s.wordLength (s.gpr d) (s.gpr src) := by
  simpa [execAdd_next h] using mask_word (maskedSum_lt s.wordLength (s.gpr d) (s.gpr src))

theorem execAdd_gpr_of_ne (h : exec (.add d src) s = .next t) {q : Reg} (hq : q ≠ d) : t.gpr q = s.gpr q := by
  simp [execAdd_next h, hq.symm]

theorem execAdd_DR (h : exec (.add d src) s = .next t) : t.DR = t.gpr d := by simp [execAdd_next h]

theorem execAdd_AR (h : exec (.add d src) s = .next t) : t.AR = s.AR := by simp [execAdd_next h]

theorem execAdd_PC (h : exec (.add d src) s = .next t) : t.PC = mask s.wordLength (s.PC.toNat + 1) := by
  simp [execAdd_next h]

theorem execAdd_halted (h : exec (.add d src) s = .next t) : t.halted = s.halted := by simp [execAdd_next h]

theorem execAdd_mem (h : exec (.add d src) s = .next t) : t.mem = s.mem := by simp [execAdd_next h]

/-- `SF` is the sign bit of the value left in the destination (R123). -/
theorem execAdd_SF (h : exec (.add d src) s = .next t) : t.SF = signBit s.wordLength (t.gpr d) := by
  rw [execAdd_gpr h, execAdd_next h]
  simp

/-- `OF` is the carry-out of the old operands (R124). -/
theorem execAdd_OF (h : exec (.add d src) s = .next t) : t.OF = carryOut s.wordLength (s.gpr d) (s.gpr src) := by
  simp [execAdd_next h]

end

/-- Settles O11: `ADD` completes, and each clause is one fact about the state it leaves. -/
theorem addWritesTheSumAndBothFlags : Obligations.AddWritesTheSumAndBothFlags := by
  intro d src s
  obtain ⟨t, h⟩ := exec_completes (wellFormed_add s.wordLength d src)
  have hword : (t.gpr d).toNat < s.wordLength.modulus := execAdd_gpr h ▸ maskedSum_lt _ _ _
  have hsum : (t.gpr d).toNat = ((s.gpr d).toNat + (s.gpr src).toNat) % 2 ^ s.wordLength.bits := by
    rw [execAdd_gpr h, toNat_maskedSum]
  have hsign : t.SF = true ↔ 2 ^ (s.wordLength.bits - 1) ≤ (t.gpr d).toNat := by
    rw [execAdd_SF h, signBit_iff hword, half_eq]
  have hsigned : t.SF = true ↔ signedValue s.wordLength (t.gpr d) < 0 := by
    rw [execAdd_SF h, signBit_iff_signedValue_neg hword]
  have hcarry : t.OF = true ↔ 2 ^ s.wordLength.bits ≤ (s.gpr d).toNat + (s.gpr src).toNat := by
    rw [execAdd_OF h, carryOut_iff]
  have hmem : sameMemory s t := fun _ => by rw [execAdd_mem h]
  exact ⟨t, h, hsum, execAdd_DR h, hsign, hsigned, hcarry, execAdd_PC h, fun _ => execAdd_gpr_of_ne h, execAdd_AR h,
    execAdd_halted h, exec_phase h, hmem, exec_keeps h⟩

/-! ## A register added to itself (R125) -/

theorem maskedSum_self (w : WordLength) (x : Word) : maskedSum w x x = mask w (2 * (x.toNat : Int)) := by
  rw [maskedSum, fullSum, Int.natCast_add, ← Int.two_mul]

/-- The carry out of a doubling is the old top bit: `2^w ≤ 2x` exactly when `2^(w-1) ≤ x`. -/
theorem carryOut_self {w : WordLength} {x : Word} (h : x.toNat < w.modulus) :
    carryOut w x x = x.getLsbD (w.bits - 1) := by
  change carryOut w x x = signBit w x
  rw [Bool.eq_iff_iff, carryOut_iff, signBit_iff h, ← modulus_eq, modulus_eq_two_mul_half]
  omega

/-- Doubling moves every bit up by one, so the sign bit of the result is the old bit `w - 2`. -/
theorem signBit_maskedSum_self (w : WordLength) (x : Word) :
    signBit w (maskedSum w x x) = x.getLsbD (w.bits - 2) := by
  have hbits : w.bits - 1 = w.bits - 2 + 1 := by cases w <;> rfl
  have hlow : w.bits - 2 + 1 < w.bits := by cases w <;> decide
  rw [signBit, BitVec.getLsbD, BitVec.getLsbD, toNat_maskedSum, ← Nat.two_mul, hbits, Nat.testBit_mod_two_pow,
    decide_eq_true hlow, Bool.true_and, Nat.testBit_succ, Nat.mul_div_cancel_left _ Nat.two_pos]

/-- Settles O12: the doubling from the three facts about `x + x`, the other two clauses from the frame of `ADD`. -/
theorem addSameRegisterDoubles : Obligations.AddSameRegisterDoubles := by
  refine ⟨?double, ?intoA, ?intoB⟩
  case double =>
    intro r s t hword h
    rw [← modulus_eq] at hword
    have hsum := execAdd_gpr h
    refine ⟨?_, ?_, ?_⟩
    · rw [hsum, maskedSum_self]
    · rw [execAdd_OF h, carryOut_self hword]
    · rw [execAdd_SF h, hsum, signBit_maskedSum_self]
  case intoA =>
    intro s t h
    exact execAdd_gpr_of_ne h (q := .B) (by decide)
  case intoB =>
    intro s t h
    exact execAdd_gpr_of_ne h (q := .A) (by decide)

end Sys2Proof.Machine
end

