-- ==== Sys2Proof/Proofs/Control.lean ====
section
/-! PROOFS. The statement of 43_control.md about the halt logic: its two inputs, `HLT` and the fall-through (R145). -/

namespace Sys2Proof.Machine

/-! ## Halting in a step -/

theorem fetch_halted {e : Entry} {s t : State} (h : fetch e s = .ok t) : t.halted = s.halted := by
  obtain ⟨-, rfl⟩ := fetch_ok h
  simp

/-- Among the executed steps only that of `HLT` halts. -/
theorem ExecutedStep.halted_iff {s t : State} {e : Entry} {i : Instr} {s1 s2 : State}
    (x : ExecutedStep s t e i s1 s2) : t.halted = true ↔ i = .hlt := by
  rw [x.retired, retire_halted, exec_halted x.executed, fetch_halted x.fetched, x.running]
  simp

/-- The instruction an executed step decodes is the only one the machine is at. -/
theorem runs_iff_of_executed {s t : State} {e : Entry} {i j : Instr} {s1 s2 : State}
    (x : ExecutedStep s t e i s1 s2) : runs s j ↔ i = j :=
  ⟨runs_unique x.runs, fun h => h ▸ x.runs⟩

/-- An executed step had an entry at `PC`. -/
theorem ExecutedStep.not_fallThrough {s t : State} {e : Entry} {i : Instr} {s1 s2 : State}
    (x : ExecutedStep s t e i s1 s2) : ¬s.prog.length ≤ s.PC.toNat := by
  simp [← no_entry_iff, x.entry]

theorem step_keeps_halted {s t : State} (hstep : step s = .next t) (hhalted : s.halted = true) : t.halted = true := by
  obtain ⟨-, hsame⟩ := haltedStepChangesNothing s hhalted
  cases hsame.symm.trans hstep
  exact hhalted

/-- The two inputs of the halt logic. -/
theorem step_halts_iff {s t : State} (hstep : step s = .next t) (hrunning : s.halted = false) :
    t.halted = true ↔ runs s .hlt ∨ s.prog.length ≤ s.PC.toNat := by
  rcases step_cases hstep with ⟨hhalted, -⟩ | ⟨-, hentry, rfl⟩ | ⟨e, i, s1, s2, x⟩
  · exact absurd (hrunning.symm.trans hhalted) Bool.false_ne_true
  · exact iff_of_true s.halted_halt (.inr ((no_entry_iff s).mp hentry))
  · rw [x.halted_iff, runs_iff_of_executed x, or_iff_left x.not_fallThrough]

theorem stepReport_ok_of_runs {s t : State} {i : Instr} (hruns : runs s i) (hstep : step s = .next t) :
    ∃ rec, stepReport s = .ok t rec := by
  obtain ⟨e, s1, s2, x⟩ := executed_of_runs hruns hstep
  exact ⟨_, stepReport_of_executed x⟩

theorem stepReport_noInstruction_of_fallThrough {s t : State} (hstep : step s = .next t) (hrunning : s.halted = false)
    (hpc : s.prog.length ≤ s.PC.toNat) : stepReport s = .noInstruction t := by
  obtain ⟨hreport, hhalt⟩ := fallThroughHaltsAndChangesNothingElse s hrunning hpc
  cases hhalt.symm.trans hstep
  exact hreport

/-! ## The state after a host command that performs no step -/

theorem State.halted_commit (s : State) (p : List Instr) : (s.commit p).halted = false := rfl

theorem State.halted_hostReset (s : State) : s.hostReset.halted = false := rfl

/-- A load commits a program or fails and leaves the state alone (45_host_commands.md R161). -/
theorem loadProgram_state (text : String) (s : State) :
    (loadProgram text s).state = s ∨ ∃ p, (loadProgram text s).state = s.commit p := by
  unfold loadProgram
  split
  next => exact .inl rfl
  next p _ =>
    unfold loadInstrs
    split
    next => exact .inl rfl
    next =>
      split
      next => exact .inl rfl
      next => exact .inr ⟨p, rfl⟩

/-- A width change commits a width or fails and leaves the state alone (45_host_commands.md R168). -/
theorem setWordLength_state (bits : Int) (s : State) :
    (setWordLength bits s).state = s ∨ ∃ w, (setWordLength bits s).state = s.commitWidth w := by
  unfold setWordLength
  split
  next => exact .inl rfl
  next w _ =>
    split
    next => exact .inl rfl
    next => exact .inr ⟨w, rfl⟩

/-- A change of the display base writes only the display base, or fails and leaves the state alone
(45_host_commands.md R171). -/
theorem setDisplayBase_state (base : String) (s : State) :
    (setDisplayBase base s).state = s ∨ ∃ b, (setDisplayBase base s).state = { s with displayBase := b } := by
  unfold setDisplayBase
  split
  next => exact .inl rfl
  next b _ => exact .inr ⟨b, rfl⟩

/-- A command that performs no step leaves a running machine running. -/
theorem command_keeps_running {c : Command} {s : State} (hrunning : s.halted = false) (hstep : c ≠ .step)
    (hrun : ∀ n, c ≠ .runUntilHalt n) : (command c s).state.halted = false := by
  cases c with
  | loadProgram text =>
    rcases loadProgram_state text s with h | ⟨p, h⟩
    · rw [command, h, hrunning]
    · rw [command, h, State.halted_commit]
  | step => exact absurd rfl hstep
  | reset => exact s.halted_hostReset
  | setWordLength bits =>
    rcases setWordLength_state bits s with h | ⟨w, h⟩
    · rw [command, h, hrunning]
    · rw [command, h, State.halted_commitWidth, hrunning]
  | setDisplayBase base =>
    rcases setDisplayBase_state base s with h | ⟨b, h⟩
    · rw [command, h, hrunning]
    · rw [command, h, hrunning]
  | runUntilHalt n => exact absurd rfl (hrun n)

/-- Settles O35: the two inputs and their reports from the three kinds of completed step, the host commands from the
states they leave. -/
theorem haltHasExactlyTwoCauses : Obligations.HaltHasExactlyTwoCauses := by
  refine ⟨?steps, ?commands⟩
  case steps =>
    intro s t hstep
    exact ⟨step_keeps_halted hstep, step_halts_iff hstep, fun hruns => stepReport_ok_of_runs hruns hstep,
      stepReport_noInstruction_of_fallThrough hstep⟩
  case commands =>
    intro c s hrunning hhalts
    refine Classical.byContradiction fun hother => ?_
    rw [not_or, not_exists] at hother
    obtain ⟨hnotStep, hnotRun⟩ := hother
    rw [command_keeps_running hrunning hnotStep hnotRun] at hhalts
    cases hhalts

end Sys2Proof.Machine
end

