-- ==== Sys2Proof/Proofs/HostCommands.lean ====
section
/-! PROOFS. The statements of 45_host_commands.md about what a command refuses: the checks of a load (R161 to R165), of
a width change (R168, R170) and of a display base (R171). -/

namespace Sys2Proof.Machine

/-! ## The first violation (R163)

`validateFrom` and `validateStore` are one search, over instructions and over entries: `firstViolation`. -/

/-- The `RangeError` of the first element, from index `i` on, that `violation` finds a value in. -/
def firstViolation {α : Type} (violation : α → Option Int) : Nat → List α → Except HostError Unit
  | _, [] => .ok ()
  | i, x :: xs =>
    match violation x with
    | some v => .error (.rangeError i v)
    | none => firstViolation violation (i + 1) xs

/-- Element `k` is in violation with the value `v`, and no earlier element is. -/
def ViolatesFirst {α : Type} (violation : α → Option Int) (xs : List α) (k : Nat) (v : Int) : Prop :=
  (∃ x, xs[k]? = some x ∧ violation x = some v) ∧ ∀ j y, j < k → xs[j]? = some y → violation y = none

theorem validateFrom_eq_firstViolation (w : WordLength) (i : Nat) (p : List Instr) :
    validateFrom w i p = firstViolation (Instr.violation w) i p := by
  induction p generalizing i with
  | nil => rfl
  | cons x xs ih =>
    rw [validateFrom, firstViolation]
    cases x.violation w with
    | some v => rfl
    | none => exact ih (i + 1)

theorem validateStore_eq_firstViolation (w : WordLength) (i : Nat) (es : List Entry) :
    validateStore w i es = firstViolation (entryViolation w) i es := by
  induction es generalizing i with
  | nil => rfl
  | cons e es ih =>
    rw [validateStore, firstViolation]
    cases entryViolation w e with
    | some v => rfl
    | none => exact ih (i + 1)

section
variable {α : Type} {violation : α → Option Int} {x : α} {xs : List α} {v : Int}

theorem firstViolation_cons_of_some (i : Nat) (h : violation x = some v) :
    firstViolation violation i (x :: xs) = .error (.rangeError i v) := by
  rw [firstViolation, h]

theorem firstViolation_cons_of_none (i : Nat) (h : violation x = none) :
    firstViolation violation i (x :: xs) = firstViolation violation (i + 1) xs := by
  rw [firstViolation, h]

theorem not_violatesFirst_nil {k : Nat} : ¬ViolatesFirst violation [] k v := by
  rintro ⟨⟨x, hx, -⟩, -⟩
  cases hx

theorem violatesFirst_cons_zero : ViolatesFirst violation (x :: xs) 0 v ↔ violation x = some v := by
  simp [ViolatesFirst]

theorem violatesFirst_cons_succ {k : Nat} :
    ViolatesFirst violation (x :: xs) (k + 1) v ↔ violation x = none ∧ ViolatesFirst violation xs k v := by
  constructor
  · rintro ⟨hk, hbefore⟩
    exact ⟨hbefore 0 x (Nat.succ_pos k) rfl, hk, fun j y hj => hbefore (j + 1) y (Nat.succ_lt_succ hj)⟩
  · rintro ⟨hx, hk, hbefore⟩
    refine ⟨hk, fun j y hj hy => ?_⟩
    cases j with
    | zero => exact Option.some.inj hy ▸ hx
    | succ j => exact hbefore j y (Nat.lt_of_succ_lt_succ hj) hy

theorem firstViolation_eq_ok_iff (i : Nat) :
    firstViolation violation i xs = .ok () ↔ ∀ x ∈ xs, violation x = none := by
  induction xs generalizing i with
  | nil => simp [firstViolation]
  | cons x xs ih =>
    cases hx : violation x with
    | some v => simp [firstViolation_cons_of_some i hx, hx]
    | none => simp [firstViolation_cons_of_none i hx, hx, ih]

/-- The search fails exactly with the index and value of the first violation. -/
theorem firstViolation_eq_error_iff {e : HostError} (i : Nat) :
    firstViolation violation i xs = .error e ↔
      ∃ k v, e = .rangeError (i + k) v ∧ ViolatesFirst violation xs k v := by
  induction xs generalizing i with
  | nil => simp [firstViolation, not_violatesFirst_nil]
  | cons x xs ih =>
    cases hx : violation x with
    | some u =>
      rw [firstViolation_cons_of_some i hx]
      constructor
      · intro h
        exact ⟨0, u, (Except.error.inj h).symm, violatesFirst_cons_zero.mpr hx⟩
      · rintro ⟨k, v, rfl, hfirst⟩
        cases k with
        | zero => rw [← Option.some.inj (hx.symm.trans (violatesFirst_cons_zero.mp hfirst)), Nat.add_zero]
        | succ k => exact absurd (hx.symm.trans (violatesFirst_cons_succ.mp hfirst).1) (Option.some_ne_none u)
    | none =>
      rw [firstViolation_cons_of_none i hx, ih]
      constructor
      · rintro ⟨k, v, rfl, hfirst⟩
        exact ⟨k + 1, v, by rw [Nat.add_right_comm, Nat.add_assoc], violatesFirst_cons_succ.mpr ⟨hx, hfirst⟩⟩
      · rintro ⟨k, v, rfl, hfirst⟩
        cases k with
        | zero => exact absurd (hx.symm.trans (violatesFirst_cons_zero.mp hfirst)) (Option.some_ne_none v).symm
        | succ k =>
          exact ⟨k, v, by rw [Nat.add_right_comm, Nat.add_assoc], (violatesFirst_cons_succ.mp hfirst).2⟩

theorem firstViolation_eq_rangeError_iff (k : Nat) (v : Int) :
    firstViolation violation 0 xs = .error (.rangeError k v) ↔ ViolatesFirst violation xs k v := by
  rw [firstViolation_eq_error_iff]
  constructor
  · rintro ⟨j, u, he, hfirst⟩
    rw [Nat.zero_add] at he
    cases he
    exact hfirst
  · intro hfirst
    exact ⟨k, v, by rw [Nat.zero_add], hfirst⟩

theorem firstViolation_error {e : HostError} {i : Nat} (h : firstViolation violation i xs = .error e) :
    ∃ k v, e = .rangeError k v := by
  obtain ⟨k, v, he, -⟩ := (firstViolation_eq_error_iff i).mp h
  exact ⟨i + k, v, he⟩

end

/-! ## `validate`, over a program (R163) -/

theorem wellFormed_iff (w : WordLength) (i : Instr) : i.wellFormed w = true ↔ i.violation w = none :=
  Option.isNone_iff_eq_none

theorem validate_eq_ok_iff (p : List Instr) (w : WordLength) :
    validate p w = .ok () ↔ ∀ x ∈ p, x.wellFormed w = true := by
  simp only [validate, validateFrom_eq_firstViolation, firstViolation_eq_ok_iff, wellFormed_iff]

theorem validate_error {p : List Instr} {w : WordLength} {e : HostError} (h : validate p w = .error e) :
    ∃ k v, e = .rangeError k v := by
  rw [validate, validateFrom_eq_firstViolation] at h
  exact firstViolation_error h

/-! ## `loadProgram`, check by check (R161) -/

section
variable {p : List Instr} {s : State}

theorem loadInstrs_of_tooLarge (h : 64 < p.length) : loadInstrs p s = .failed s (.programTooLarge p.length) :=
  if_pos h

theorem loadInstrs_of_invalid (h : p.length ≤ 64) {e : HostError} (hv : validate p s.wordLength = .error e) :
    loadInstrs p s = .failed s e := by
  have hfits : ¬p.length > memorySize := Nat.not_lt.mpr h
  rw [loadInstrs, if_neg hfits, hv]

theorem loadInstrs_of_valid (h : p.length ≤ 64) (hv : validate p s.wordLength = .ok ()) :
    loadInstrs p s = .changed (s.commit p) (.count p.length) := by
  have hfits : ¬p.length > memorySize := Nat.not_lt.mpr h
  rw [loadInstrs, if_neg hfits, hv]

/-- The size check is the only one that answers `ProgramTooLarge` (R162). -/
theorem loadInstrs_tooLarge_iff :
    (loadInstrs p s).response = .error (.programTooLarge p.length) ↔ 64 < p.length := by
  constructor
  · intro h
    refine Nat.lt_of_not_le fun hle => ?_
    cases hv : validate p s.wordLength with
    | error e =>
      obtain ⟨k, v, rfl⟩ := validate_error hv
      rw [loadInstrs_of_invalid hle hv] at h
      cases h
    | ok _ =>
      rw [loadInstrs_of_valid hle hv] at h
      cases h
  · intro h
    rw [loadInstrs_of_tooLarge h]
    rfl

theorem State.prog_commit : (s.commit p).prog = p.map encodeEntry := rfl

theorem State.mem_commit : (s.commit p).mem = Memory.writeImage s.wordLength 0 (p.map encodeEntry) [] := rfl

/-- After the commit, cell `i` holds the image word of instruction `i` (R164). -/
theorem State.read_commit_image {i : Nat} {x : Instr} (hx : p[i]? = some x) :
    (s.commit p).mem.read i = encode s.wordLength x := by
  rw [State.mem_commit, Memory.read_writeImage s.wordLength _ 0 rfl, if_pos (Nat.zero_le i), Nat.sub_zero,
    List.getElem?_map, hx]
  rfl

end

theorem loadProgram_of_parse_error {text : String} {e : ParseError} (s : State) (h : parse text = .error e) :
    loadProgram text s = .failed s (.parseError e) := by
  rw [loadProgram, h]

theorem loadProgram_of_parse_ok {text : String} {p : List Instr} (s : State) (h : parse text = .ok p) :
    loadProgram text s = loadInstrs p s := by
  rw [loadProgram, h]

/-- Settles O45: one equation for each outcome of the three checks. -/
theorem programsOfAtMost64InstructionsLoad : Obligations.ProgramsOfAtMost64InstructionsLoad := by
  refine ⟨fun text s => ⟨fun _ => loadProgram_of_parse_error s, fun _ => loadProgram_of_parse_ok s⟩, fun p s => ?_⟩
  refine ⟨loadInstrs_tooLarge_iff, loadInstrs_of_tooLarge, fun hfits _ => loadInstrs_of_invalid hfits, ?valid⟩
  intro hfits hvalid
  rw [loadInstrs_of_valid hfits ((validate_eq_ok_iff p s.wordLength).mpr hvalid)]
  exact ⟨rfl, State.prog_commit, fun _ _ => State.read_commit_image⟩

/-! ## Validation of the stored program (R168) -/

section
variable {w : WordLength} {e : Entry}

theorem Entry.valid_iff : Entry.valid w e = true ↔ ∃ i, decodeEntry e = .ok i ∧ i.wellFormed w = true := by
  simp only [← decodeValid_eq_ok, Entry.valid]
  cases decodeValid w e <;> simp

theorem entryViolation_of_decoded {i : Instr} (h : decodeEntry e = .ok i) : entryViolation w e = i.violation w := by
  rw [entryViolation, h]

theorem entryViolation_eq_some_iff {v : Int} :
    entryViolation w e = some v ↔ ∃ i, decodeEntry e = .ok i ∧ i.violation w = some v := by
  unfold entryViolation
  cases decodeEntry e <;> simp

/-- An entry valid at 16 bits decodes, so at any width only its operands can make it invalid. -/
theorem entryViolation_eq_none_iff (h : Entry.valid .w16 e = true) :
    entryViolation w e = none ↔ Entry.valid w e = true := by
  obtain ⟨i, hi, -⟩ := Entry.valid_iff.mp h
  simp only [entryViolation_of_decoded hi, Entry.valid_iff, hi, Except.ok.injEq, exists_eq_left', wellFormed_iff]

end

section
variable {w : WordLength} {es : List Entry}

theorem validateStore_eq_ok_iff (h : ∀ e ∈ es, Entry.valid .w16 e = true) :
    validateStore w 0 es = .ok () ↔ es.all (Entry.valid w) = true := by
  rw [validateStore_eq_firstViolation, firstViolation_eq_ok_iff, List.all_eq_true]
  exact forall₂_congr fun e he => entryViolation_eq_none_iff (h e he)

theorem validateStore_error {e : HostError} (h : validateStore w 0 es = .error e) : ∃ k v, e = .rangeError k v := by
  rw [validateStore_eq_firstViolation] at h
  exact firstViolation_error h

theorem validateStore_eq_rangeError_iff (h : ∀ e ∈ es, Entry.valid .w16 e = true) (k : Nat) (v : Int) :
    validateStore w 0 es = .error (.rangeError k v) ↔
      (∃ e i, es[k]? = some e ∧ decodeEntry e = .ok i ∧ i.violation w = some v) ∧
      ∀ j e, j < k → es[j]? = some e → Entry.valid w e = true := by
  have hearlier (j : Nat) (e : Entry) (he : es[j]? = some e) : entryViolation w e = none ↔ Entry.valid w e = true :=
    entryViolation_eq_none_iff (h e (List.mem_of_getElem? he))
  calc validateStore w 0 es = .error (.rangeError k v)
    _ ↔ ViolatesFirst (entryViolation w) es k v := by
      rw [validateStore_eq_firstViolation, firstViolation_eq_rangeError_iff]
    _ ↔ _ := by
      refine and_congr ?_ (forall₂_congr fun j e => forall₂_congr fun _ he => hearlier j e he)
      simp only [entryViolation_eq_some_iff, exists_and_left]

end

/-! ## `setWordLength`, check by check (R168, R170) -/

theorem wordLengthOf_bits (w : WordLength) : wordLengthOf w.bits = some w := by cases w <;> rfl

theorem wordLengthOf_of_unsupported {bits : Int} (h10 : bits ≠ 10) (h16 : bits ≠ 16) : wordLengthOf bits = none := by
  rw [wordLengthOf, if_neg h10, if_neg h16]

theorem setWordLength_of_unsupported {bits : Int} (s : State) (h : wordLengthOf bits = none) :
    setWordLength bits s = .failed s (.unsupportedConfiguration (.wordLength bits)) := by
  rw [setWordLength, h]

section
variable {w : WordLength} {s : State}

theorem setWordLength_of_valid (h : validateStore w 0 s.prog = .ok ()) :
    setWordLength w.bits s = .changed (s.commitWidth w) .done := by
  rw [setWordLength, wordLengthOf_bits]
  simp only [h]

theorem setWordLength_of_invalid {e : HostError} (h : validateStore w 0 s.prog = .error e) :
    setWordLength w.bits s = .failed s e := by
  rw [setWordLength, wordLengthOf_bits]
  simp only [h]

theorem setWordLength_done_iff : (setWordLength w.bits s).response = .done ↔ validateStore w 0 s.prog = .ok () := by
  cases h : validateStore w 0 s.prog with
  | error e => simp [setWordLength_of_invalid h, Reply.failed]
  | ok _ => simp [setWordLength_of_valid h, Reply.changed]

theorem setWordLength_error_iff {e : HostError} :
    (setWordLength w.bits s).response = .error e ↔ validateStore w 0 s.prog = .error e := by
  cases h : validateStore w 0 s.prog with
  | error d => simp [setWordLength_of_invalid h, Reply.failed]
  | ok _ => simp [setWordLength_of_valid h, Reply.changed]

end

/-- Settles O48: the response of a supported width is the outcome of `validateStore`, and each clause is a fact about
that search. -/
theorem widthChangeIsAllOrNothing : Obligations.WidthChangeIsAllOrNothing := by
  intro bits s
  refine ⟨fun h10 h16 => setWordLength_of_unsupported s (wordLengthOf_of_unsupported h10 h16), ?supported⟩
  rintro w rfl hstored
  have hdecodes := List.all_eq_true.mp hstored
  have haccepts : (setWordLength w.bits s).response = .done ↔ s.prog.all (Entry.valid w) = true :=
    setWordLength_done_iff.trans (validateStore_eq_ok_iff hdecodes)
  refine ⟨haccepts, fun hinvalid => ?refused, fun k v => ?first⟩
  case refused =>
    cases hv : validateStore w 0 s.prog with
    | ok _ =>
      have hvalid := (validateStore_eq_ok_iff hdecodes).mp hv
      exact absurd (hinvalid.symm.trans hvalid) Bool.false_ne_true
    | error e =>
      obtain ⟨k, v, rfl⟩ := validateStore_error hv
      rw [setWordLength_of_invalid hv]
      exact ⟨rfl, rfl, k, v, rfl⟩
  case first => exact setWordLength_error_iff.trans (validateStore_eq_rangeError_iff hdecodes k v)

/-! ## `setDisplayBase` (R171) -/

theorem displayBaseOf_of_supported {name : String} {b : DisplayBase}
    (h : (name, b) ∈ [("bin", DisplayBase.bin), ("hex", .hex), ("dec", .dec)]) : displayBaseOf name = some b := by
  simp only [List.mem_cons, List.not_mem_nil, or_false, Prod.mk.injEq] at h
  obtain ⟨rfl, rfl⟩ | ⟨rfl, rfl⟩ | ⟨rfl, rfl⟩ := h <;> rfl

theorem displayBaseOf_of_unsupported {name : String} (hbin : name ≠ "bin") (hhex : name ≠ "hex")
    (hdec : name ≠ "dec") : displayBaseOf name = none := by
  rw [displayBaseOf, if_neg hbin, if_neg hhex, if_neg hdec]

theorem setDisplayBase_of_supported {name : String} {b : DisplayBase} (s : State) (h : displayBaseOf name = some b) :
    setDisplayBase name s = .changed { s with displayBase := b } .done := by
  rw [setDisplayBase, h]

theorem setDisplayBase_of_unsupported {name : String} (s : State) (h : displayBaseOf name = none) :
    setDisplayBase name s = .failed s (.unsupportedConfiguration (.displayBase name)) := by
  rw [setDisplayBase, h]

/-- Settles O52: the name decides between the two replies. -/
theorem displayBaseCommandWritesOnlyTheDisplayBase : Obligations.DisplayBaseCommandWritesOnlyTheDisplayBase := by
  intro s
  refine ⟨fun name b hname => ?accepted, fun name hbin hhex hdec => ?refused⟩
  case accepted => exact setDisplayBase_of_supported s (displayBaseOf_of_supported hname)
  case refused => exact setDisplayBase_of_unsupported s (displayBaseOf_of_unsupported hbin hhex hdec)

end Sys2Proof.Machine
end

