-- ==== Sys2Proof/Proofs/Exceptions.lean ====
section
/-! PROOFS. The statement of 60_exceptions.md about host commands: the ones that fail change and notify nothing
(R216). -/

namespace Sys2Proof.Machine

/-! ## Replies that fail only as `Reply.failed` -/

/-- A reply to a command given in state `s` that, if it answers an error, is `Reply.failed s`: `s` kept, nothing
notified. -/
def Reply.FailsCleanly (s : State) (r : Reply) : Prop :=
  ∀ e, r.response = .error e → r = .failed s e

theorem Reply.failsCleanly_failed (s : State) (e : HostError) : (Reply.failed s e).FailsCleanly s := by
  intro d h
  cases h
  rfl

theorem Reply.failsCleanly_of_ne_error {s : State} {r : Reply} (h : ∀ e, r.response ≠ .error e) : r.FailsCleanly s :=
  fun e he => absurd he (h e)

/-! ## The commands, one by one (45_host_commands.md R161, R166 to R171) -/

section
variable (s : State)

theorem loadInstrs_failsCleanly (p : List Instr) : (loadInstrs p s).FailsCleanly s := by
  rcases Nat.lt_or_ge 64 p.length with hlarge | hfits
  · rw [loadInstrs_of_tooLarge hlarge]
    exact Reply.failsCleanly_failed s _
  · cases hv : validate p s.wordLength with
    | error e =>
      rw [loadInstrs_of_invalid hfits hv]
      exact Reply.failsCleanly_failed s e
    | ok _ =>
      rw [loadInstrs_of_valid hfits hv]
      exact Reply.failsCleanly_of_ne_error nofun

theorem loadProgram_failsCleanly (text : String) : (loadProgram text s).FailsCleanly s := by
  cases h : parse text with
  | error e =>
    rw [loadProgram_of_parse_error s h]
    exact Reply.failsCleanly_failed s _
  | ok p =>
    rw [loadProgram_of_parse_ok s h]
    exact loadInstrs_failsCleanly s p

/-- Of the five step reports, only a fault and a refusal make `step()` fail (60_exceptions.md R203, 30_encoding.md R74). -/
theorem stepCommand_failsCleanly : (stepCommand s).FailsCleanly s := by
  unfold stepCommand
  cases stepReport s with
  | ok after record => exact Reply.failsCleanly_of_ne_error nofun
  | halted => exact Reply.failsCleanly_of_ne_error nofun
  | noInstruction after => exact Reply.failsCleanly_of_ne_error nofun
  | fault f => exact Reply.failsCleanly_failed s _
  | refused r => exact Reply.failsCleanly_failed s _

theorem resetCommand_failsCleanly : (resetCommand s).FailsCleanly s :=
  Reply.failsCleanly_of_ne_error nofun

theorem setWordLength_failsCleanly (bits : Int) : (setWordLength bits s).FailsCleanly s := by
  cases hw : wordLengthOf bits with
  | none =>
    rw [setWordLength_of_unsupported s hw]
    exact Reply.failsCleanly_failed s _
  | some w =>
    obtain rfl : (w.bits : Int) = bits := bits_of_wordLengthOf hw
    cases hv : validateStore w 0 s.prog with
    | error e =>
      rw [setWordLength_of_invalid hv]
      exact Reply.failsCleanly_failed s e
    | ok _ =>
      rw [setWordLength_of_valid hv]
      exact Reply.failsCleanly_of_ne_error nofun

theorem setDisplayBase_failsCleanly (base : String) : (setDisplayBase base s).FailsCleanly s := by
  cases h : displayBaseOf base with
  | none =>
    rw [setDisplayBase_of_unsupported s h]
    exact Reply.failsCleanly_failed s _
  | some b =>
    rw [setDisplayBase_of_supported s h]
    exact Reply.failsCleanly_of_ne_error nofun

end

/-- The exception is `runUntilHalt`, whose steps stay committed (60_exceptions.md R216). -/
theorem command_failsCleanly {c : Command} (hrun : ∀ n, c ≠ .runUntilHalt n) (s : State) :
    (command c s).FailsCleanly s := by
  cases c with
  | loadProgram text => exact loadProgram_failsCleanly s text
  | step => exact stepCommand_failsCleanly s
  | reset => exact resetCommand_failsCleanly s
  | setWordLength bits => exact setWordLength_failsCleanly s bits
  | setDisplayBase base => exact setDisplayBase_failsCleanly s base
  | runUntilHalt n => exact absurd rfl (hrun n)

/-- Settles O43: the failed reply is `Reply.failed s e`, whose state is `s` and whose notices are none. -/
theorem failedCommandsChangeNothing : Obligations.FailedCommandsChangeNothing := by
  intro c s e herror hrun
  rw [command_failsCleanly hrun s e herror]
  exact ⟨rfl, rfl⟩

end Sys2Proof.Machine
end

