-- ==== Sys2Proof/Proofs/Reset.lean ====
section
/-! PROOFS. The statements of 70_reset_and_hazards.md about power-on, a successful load and `reset`. All three leave the
state of one operation, the events that perform a CPU reset in the table of R231. -/

namespace Sys2Proof.Machine

/-! ## The CPU reset with a fresh image (R231) -/

/-- The CPU reset, with the store `es` in place of the old one, its image in a zero-filled memory, and phase `q`. -/
def State.reloaded (s : State) (es : List Entry) (q : Phase) : State :=
  { ({ s.cpuReset with prog := es } : State).freshImage with phase := q }

theorem State.reset_eq_reloaded : State.reset = State.reset.reloaded [] .idle := rfl

theorem State.hostReset_eq_reloaded (s : State) : s.hostReset = s.reloaded s.prog .idle := rfl

theorem State.commit_eq_reloaded (s : State) (p : List Instr) :
    s.commit p = s.reloaded (p.map encodeEntry) .ready := rfl

/-- The values of the CPU reset: registers, flags, `halted`, `cycle` and the bus trace (10_state.md R38). -/
def State.HasResetValues (t : State) : Prop :=
  t.A = 0 ∧ t.B = 0 ∧ t.DR = 0 ∧ t.AR = 0 ∧ t.PC = 0 ∧ t.SP = 63 ∧ t.IR = 0 ∧ t.SF = false ∧ t.OF = false ∧
  t.halted = false ∧ t.cycle = 0 ∧ t.bus.AB = 0 ∧ t.bus.DB = 0 ∧ t.bus.control = none ∧ t.bus.activePaths = []

section
variable (s : State) (es : List Entry) (q : Phase)

@[simp] theorem State.wordLength_reloaded : (s.reloaded es q).wordLength = s.wordLength := rfl
@[simp] theorem State.displayBase_reloaded : (s.reloaded es q).displayBase = s.displayBase := rfl
@[simp] theorem State.mem_reloaded : (s.reloaded es q).mem = Memory.writeImage s.wordLength 0 es [] := rfl

theorem State.hasResetValues_reloaded : (s.reloaded es q).HasResetValues :=
  ⟨rfl, rfl, rfl, rfl, rfl, rfl, rfl, rfl, rfl, rfl, rfl, rfl, rfl, rfl, rfl⟩

/-- A cell of the fresh image: its entry's image word inside the program, 0 outside (R233). -/
theorem State.read_reloaded (a : Nat) :
    (s.reloaded es q).mem.read a = ((es[a]?).map (encodeImage s.wordLength)).getD 0 := by
  rw [State.mem_reloaded, Memory.read_writeImage s.wordLength es 0 rfl a, if_pos (Nat.zero_le a), Nat.sub_zero]
  rfl

theorem State.read_reloaded_image {a : Nat} {e : Entry} (he : es[a]? = some e) :
    (s.reloaded es q).mem.read a = encodeImage s.wordLength e := by
  rw [State.read_reloaded, he, Option.map_some, Option.getD_some]

theorem State.read_reloaded_data {a : Nat} (ha : es.length ≤ a) : (s.reloaded es q).mem.read a = 0 := by
  rw [State.read_reloaded, List.getElem?_eq_none ha, Option.map_none, Option.getD_none]

end

/-! ## Power-on (R230) -/

/-- Settles O38: power-on is the reset event with an empty store, so every cell is past the program. -/
theorem powerOnState : Obligations.PowerOnState := by
  unfold Obligations.PowerOnState
  have hvalues : State.reset.HasResetValues := by
    rw [State.reset_eq_reloaded]
    exact State.reset.hasResetValues_reloaded [] .idle
  have hzero (a : Nat) : State.reset.mem.read a = 0 := by
    rw [State.reset_eq_reloaded]
    exact State.reset.read_reloaded_data [] .idle (Nat.zero_le a)
  simpa only [State.HasResetValues, and_assoc] using And.intro hvalues ⟨hzero, rfl, rfl, rfl, rfl⟩

/-! ## A load or a reset that succeeds (R233) -/

theorem command_reset (s : State) : command .reset s = .changed (s.reloaded s.prog .idle) .done := by
  rw [command, resetCommand, State.hostReset_eq_reloaded]

/-- The one way a load answers a count: the source parses, and the program it gives is loaded and counted
(45_host_commands.md R161, R164). -/
theorem loadProgram_of_count {text : String} {n : Nat} {s : State} (h : (loadProgram text s).response = .count n) :
    ∃ p, parse text = .ok p ∧
      loadProgram text s = .changed (s.reloaded (p.map encodeEntry) .ready) (.count p.length) := by
  cases hparse : parse text with
  | error e =>
    rw [loadProgram_of_parse_error s hparse] at h
    cases h
  | ok p =>
    refine ⟨p, rfl, ?_⟩
    rw [loadProgram_of_parse_ok s hparse] at h ⊢
    rcases Nat.lt_or_ge 64 p.length with hlarge | hfits
    · rw [loadInstrs_of_tooLarge hlarge] at h
      cases h
    · cases hvalid : validate p s.wordLength with
      | error e =>
        rw [loadInstrs_of_invalid hfits hvalid] at h
        cases h
      | ok _ => rw [loadInstrs_of_valid hfits hvalid, State.commit_eq_reloaded]

/-- What a load and a reset of `s` both leave in `t`: the image of the stored program in a memory of
zeros, the values of the CPU reset, and the configuration of `s`. -/
def State.ReloadedFrom (s t : State) : Prop :=
  (∀ i e, t.prog[i]? = some e → t.mem.read i = encodeImage t.wordLength e) ∧
  (∀ i, t.prog.length ≤ i → t.mem.read i = 0) ∧
  t.HasResetValues ∧ t.wordLength = s.wordLength ∧ t.displayBase = s.displayBase

theorem State.reloadedFrom_reloaded (s : State) (es : List Entry) (q : Phase) : s.ReloadedFrom (s.reloaded es q) :=
  ⟨fun _ _ => s.read_reloaded_image es q, fun _ => s.read_reloaded_data es q, s.hasResetValues_reloaded es q,
    s.wordLength_reloaded es q, s.displayBase_reloaded es q⟩

/-- Settles O46: either command leaves a reloaded state; they differ in the store, the phase and the response. -/
theorem loadAndResetLeaveTheImage : Obligations.LoadAndResetLeaveTheImage := by
  intro c s hc
  suffices h : s.ReloadedFrom (command c s).state ∧
      (c = .reset →
        (command c s).state.prog = s.prog ∧ (command c s).state.phase = .idle ∧ (command c s).response = .done) ∧
      (∀ text, c = .loadProgram text → (command c s).state.phase = .ready ∧
        ∃ p, parse text = .ok p ∧ (command c s).state.prog = p.map encodeEntry ∧
          (command c s).response = .count p.length) by
    simpa only [State.ReloadedFrom, State.HasResetValues, and_assoc] using h
  obtain rfl | ⟨text, n, rfl, hcount⟩ := hc
  · rw [command_reset]
    exact ⟨s.reloadedFrom_reloaded s.prog .idle, fun _ => ⟨rfl, rfl, rfl⟩, nofun⟩
  · obtain ⟨p, hparse, hload⟩ := loadProgram_of_count hcount
    rw [command, hload]
    refine ⟨s.reloadedFrom_reloaded (p.map encodeEntry) .ready, nofun, fun _ htext => ?loaded⟩
    cases htext
    exact ⟨rfl, p, hparse, rfl, rfl⟩

end Sys2Proof.Machine
end

section
/-! PROOFS. The statements of 30_encoding.md about the two decoders: entries decode to the instruction they encode
(R72, R74), and 16-bit image words are read back (R82). -/

namespace Sys2Proof.Machine

/-! ## Fields -/

@[simp] theorem ofSel_sel (r : Reg) : Reg.ofSel r.sel = r := by cases r <;> rfl

@[simp] theorem sel_ofSel : ∀ b : BitVec 1, (Reg.ofSel b).sel = b := by decide

/-- An immediate that fits a width of at most 16 bits survives the 16-bit field. -/
theorem toInt_ofInt_immediate {w : WordLength} {imm : Int} (h : immediateInRange w imm = true) :
    (BitVec.ofInt 16 imm).toInt = imm := by
  rw [immediateInRange_iff] at h
  obtain ⟨-, hw, -⟩ | ⟨-, hw, -⟩ := modulus_cases w <;> rw [hw] at h <;>
    exact BitVec.toInt_ofInt_eq_self (by decide) (by omega) (by omega)

theorem immediateInRange_toInt (v : BitVec 16) : immediateInRange .w16 v.toInt = true := by
  rw [immediateInRange_iff]
  have hlo := v.le_toInt
  have hhi := v.toInt_lt
  simp only [WordLength.half] at *
  omega

theorem toNat_ofInt_address {a : Int} (h : addressInRange a = true) : ((BitVec.ofInt 6 a).toNat : Int) = a := by
  rw [addressInRange_iff] at h
  rw [BitVec.toNat_ofInt]
  omega

theorem addressInRange_toNat (v : BitVec 6) : addressInRange v.toNat = true := by
  rw [addressInRange_iff]
  have := v.isLt
  omega

@[simp] theorem ofInt_toNat {k : Nat} (v : BitVec k) : BitVec.ofInt k v.toNat = v := by
  rw [BitVec.ofInt_natCast, BitVec.ofNat_toNat, BitVec.setWidth_eq]

/-! ## The entry decoder, what decodes under each opcode (R72) -/

theorem requireUnused_eq_ok {unused : Bool} {i j : Instr} :
    requireUnused unused i = .ok j ↔ unused = true ∧ i = j := by
  cases unused <;> simp [requireUnused]

section
variable {i : Instr} {r s : BitVec 1} {imm : BitVec 16} {addr : BitVec 6}

theorem decodeEntry_ldi : decodeEntry ⟨Opcode.ldi.tag, r, s, imm, addr⟩ = .ok i ↔
    (s = 0 ∧ addr = 0) ∧ .ldi (.ofSel r) imm.toInt = i :=
  requireUnused_eq_ok.trans (by simp only [Bool.and_eq_true, beq_iff_eq])

theorem decodeEntry_add : decodeEntry ⟨Opcode.add.tag, r, s, imm, addr⟩ = .ok i ↔
    (imm = 0 ∧ addr = 0) ∧ .add (.ofSel r) (.ofSel s) = i :=
  requireUnused_eq_ok.trans (by simp only [Bool.and_eq_true, beq_iff_eq])

theorem decodeEntry_store : decodeEntry ⟨Opcode.store.tag, r, s, imm, addr⟩ = .ok i ↔
    (s = 0 ∧ imm = 0) ∧ .store (.ofSel r) addr.toNat = i :=
  requireUnused_eq_ok.trans (by simp only [Bool.and_eq_true, beq_iff_eq])

theorem decodeEntry_load : decodeEntry ⟨Opcode.load.tag, r, s, imm, addr⟩ = .ok i ↔
    (s = 0 ∧ imm = 0) ∧ .load (.ofSel r) addr.toNat = i :=
  requireUnused_eq_ok.trans (by simp only [Bool.and_eq_true, beq_iff_eq])

theorem decodeEntry_jmp : decodeEntry ⟨Opcode.jmp.tag, r, s, imm, addr⟩ = .ok i ↔
    ((r = 0 ∧ s = 0) ∧ imm = 0) ∧ .jmp addr.toNat = i :=
  requireUnused_eq_ok.trans (by simp only [Bool.and_eq_true, beq_iff_eq])

theorem decodeEntry_jz : decodeEntry ⟨Opcode.jz.tag, r, s, imm, addr⟩ = .ok i ↔
    (s = 0 ∧ imm = 0) ∧ .jz (.ofSel r) addr.toNat = i :=
  requireUnused_eq_ok.trans (by simp only [Bool.and_eq_true, beq_iff_eq])

theorem decodeEntry_hlt : decodeEntry ⟨Opcode.hlt.tag, r, s, imm, addr⟩ = .ok i ↔
    (((r = 0 ∧ s = 0) ∧ imm = 0) ∧ addr = 0) ∧ .hlt = i :=
  requireUnused_eq_ok.trans (by simp only [Bool.and_eq_true, beq_iff_eq])

end

theorem decodeEntry_of_badTag {e : Entry} (h : Opcode.ofTag e.op = none) : decodeEntry e = .error (.badTag e.op) := by
  rw [decodeEntry, h]

/-- Settles O2: the encoder leaves the unused fields 0, and each operand that validation admits fits its field. -/
theorem decodeOfEncodedEntryIsTheInstruction : Obligations.DecodeOfEncodedEntryIsTheInstruction := by
  intro w i hvalid
  cases i with
  | ldi r imm =>
    rw [wellFormed_ldi] at hvalid
    exact decodeEntry_ldi.mpr ⟨⟨rfl, rfl⟩, by rw [ofSel_sel, toInt_ofInt_immediate hvalid]⟩
  | add d s => exact decodeEntry_add.mpr ⟨⟨rfl, rfl⟩, by rw [ofSel_sel, ofSel_sel]⟩
  | store r a =>
    rw [wellFormed_store] at hvalid
    exact decodeEntry_store.mpr ⟨⟨rfl, rfl⟩, by rw [ofSel_sel, toNat_ofInt_address hvalid]⟩
  | load r a =>
    rw [wellFormed_load] at hvalid
    exact decodeEntry_load.mpr ⟨⟨rfl, rfl⟩, by rw [ofSel_sel, toNat_ofInt_address hvalid]⟩
  | jmp a =>
    rw [wellFormed_jmp] at hvalid
    exact decodeEntry_jmp.mpr ⟨⟨⟨rfl, rfl⟩, rfl⟩, by rw [toNat_ofInt_address hvalid]⟩
  | jz r a =>
    rw [wellFormed_jz] at hvalid
    exact decodeEntry_jz.mpr ⟨⟨rfl, rfl⟩, by rw [ofSel_sel, toNat_ofInt_address hvalid]⟩
  | hlt => exact decodeEntry_hlt.mpr ⟨⟨⟨⟨rfl, rfl⟩, rfl⟩, rfl⟩, rfl⟩

/-- Settles O3: the fields an opcode uses are recovered from the operands, and the others decode only as 0. -/
theorem decodedEntryEncodesBack : Obligations.DecodedEntryEncodesBack := by
  rintro ⟨tag, r, s, imm, addr⟩ i hdec
  cases hop : Opcode.ofTag tag with
  | none =>
    rw [decodeEntry_of_badTag hop] at hdec
    cases hdec
  | some op =>
    obtain rfl := tag_of_ofTag hop
    cases op with
    | ldi =>
      obtain ⟨⟨rfl, rfl⟩, rfl⟩ := decodeEntry_ldi.mp hdec
      exact ⟨by rw [encodeEntry, sel_ofSel, BitVec.ofInt_toInt], by rw [wellFormed_ldi, immediateInRange_toInt]⟩
    | add =>
      obtain ⟨⟨rfl, rfl⟩, rfl⟩ := decodeEntry_add.mp hdec
      exact ⟨by rw [encodeEntry, sel_ofSel, sel_ofSel], wellFormed_add _ _ _⟩
    | store =>
      obtain ⟨⟨rfl, rfl⟩, rfl⟩ := decodeEntry_store.mp hdec
      exact ⟨by rw [encodeEntry, sel_ofSel, ofInt_toNat], by rw [wellFormed_store, addressInRange_toNat]⟩
    | load =>
      obtain ⟨⟨rfl, rfl⟩, rfl⟩ := decodeEntry_load.mp hdec
      exact ⟨by rw [encodeEntry, sel_ofSel, ofInt_toNat], by rw [wellFormed_load, addressInRange_toNat]⟩
    | jmp =>
      obtain ⟨⟨⟨rfl, rfl⟩, rfl⟩, rfl⟩ := decodeEntry_jmp.mp hdec
      exact ⟨by rw [encodeEntry, ofInt_toNat], by rw [wellFormed_jmp, addressInRange_toNat]⟩
    | jz =>
      obtain ⟨⟨rfl, rfl⟩, rfl⟩ := decodeEntry_jz.mp hdec
      exact ⟨by rw [encodeEntry, sel_ofSel, ofInt_toNat], by rw [wellFormed_jz, addressInRange_toNat]⟩
    | hlt =>
      obtain ⟨⟨⟨⟨rfl, rfl⟩, rfl⟩, rfl⟩, rfl⟩ := decodeEntry_hlt.mp hdec
      exact ⟨rfl, rfl⟩

/-! ## The image decoder, what decodes under each opcode (R82) -/

theorem requireZero_eq_ok {zero : Bool} {i j : Instr} : requireZero zero i = .ok j ↔ zero = true ∧ i = j := by
  cases zero <;> simp [requireZero]

theorem decodeTag_w16 (word : Word) : decodeTag .w16 word = Opcode.ofTag (word.extractLsb' 12 4) := by
  rw [decodeTag, topBits_eq_ofNat, ← Nat.shiftRight_eq_div_pow]
  rfl

theorem decodeTag_w16_of_tag {word : Word} {op : Opcode} (h : word.extractLsb' 12 4 = op.tag) :
    decodeTag .w16 word = some op := by
  rw [decodeTag_w16, h, ofTag_tag]

section
variable {i : Instr} {word : Word}

theorem decodeImage_ldi (h : word.extractLsb' 12 4 = Opcode.ldi.tag) : decodeImage word = .ok i ↔
    .ldi (.ofSel (word.extractLsb' 11 1)) (word.extractLsb' 0 11).toInt = i := by
  simp only [decodeImage, decodeTag_w16_of_tag h, Except.ok.injEq]

theorem decodeImage_add (h : word.extractLsb' 12 4 = Opcode.add.tag) : decodeImage word = .ok i ↔
    word.extractLsb' 2 10 = 0 ∧ .add (.ofSel (word.extractLsb' 1 1)) (.ofSel (word.extractLsb' 0 1)) = i := by
  simp only [decodeImage, decodeTag_w16_of_tag h, requireZero_eq_ok, beq_iff_eq]

theorem decodeImage_store (h : word.extractLsb' 12 4 = Opcode.store.tag) : decodeImage word = .ok i ↔
    word.extractLsb' 7 5 = 0 ∧ .store (.ofSel (word.extractLsb' 6 1)) (word.extractLsb' 0 6).toNat = i := by
  simp only [decodeImage, decodeTag_w16_of_tag h, requireZero_eq_ok, beq_iff_eq]

theorem decodeImage_load (h : word.extractLsb' 12 4 = Opcode.load.tag) : decodeImage word = .ok i ↔
    word.extractLsb' 7 5 = 0 ∧ .load (.ofSel (word.extractLsb' 6 1)) (word.extractLsb' 0 6).toNat = i := by
  simp only [decodeImage, decodeTag_w16_of_tag h, requireZero_eq_ok, beq_iff_eq]

theorem decodeImage_jmp (h : word.extractLsb' 12 4 = Opcode.jmp.tag) : decodeImage word = .ok i ↔
    word.extractLsb' 6 6 = 0 ∧ .jmp (word.extractLsb' 0 6).toNat = i := by
  simp only [decodeImage, decodeTag_w16_of_tag h, requireZero_eq_ok, beq_iff_eq]

theorem decodeImage_jz (h : word.extractLsb' 12 4 = Opcode.jz.tag) : decodeImage word = .ok i ↔
    word.extractLsb' 7 5 = 0 ∧ .jz (.ofSel (word.extractLsb' 6 1)) (word.extractLsb' 0 6).toNat = i := by
  simp only [decodeImage, decodeTag_w16_of_tag h, requireZero_eq_ok, beq_iff_eq]

theorem decodeImage_hlt (h : word.extractLsb' 12 4 = Opcode.hlt.tag) : decodeImage word = .ok i ↔
    word.extractLsb' 0 12 = 0 ∧ .hlt = i := by
  simp only [decodeImage, decodeTag_w16_of_tag h, requireZero_eq_ok, beq_iff_eq]

theorem decodeImage_of_badTag (h : Opcode.ofTag (word.extractLsb' 12 4) = none) :
    decodeImage word = .error (.badTag (word.extractLsb' 12 4)) := by
  simp only [decodeImage, decodeTag_w16, h]

end

/-! ## Reading and writing an image word -/

theorem append_eq_extractLsb'_iff {n k len lo : Nat} {word : BitVec n} {high : BitVec k} {low : BitVec len} :
    high ++ low = word.extractLsb' lo (k + len) ↔
      high = word.extractLsb' (lo + len) k ∧ low = word.extractLsb' lo len := by
  rw [← BitVec.extractLsb'_append_extractLsb'_eq_extractLsb' rfl, append_inj_iff]

theorem append_eq_word_iff {k len : Nat} {word : BitVec (k + len)} {high : BitVec k} {low : BitVec len} :
    high ++ low = word ↔ high = word.extractLsb' len k ∧ low = word.extractLsb' 0 len := by
  have hword := BitVec.extractLsb'_append_extractLsb' (x := word)
  constructor
  · intro h
    exact append_inj_iff.mp (h.trans hword.symm)
  · intro h
    exact (append_inj_iff.mpr h).trans hword

section
variable {word : Word} {tag : BitVec 4}

/-- The layout of `LDI`. -/
theorem layout_immediate {sel : BitVec 1} {imm : BitVec 11} : tag ++ sel ++ imm = word ↔
    (tag = word.extractLsb' 12 4 ∧ sel = word.extractLsb' 11 1) ∧ imm = word.extractLsb' 0 11 :=
  append_eq_word_iff.trans (and_congr_left' append_eq_extractLsb'_iff)

/-- The layout of `ADD`. -/
theorem layout_registers {zero : BitVec 10} {d s : BitVec 1} : tag ++ zero ++ d ++ s = word ↔
    ((tag = word.extractLsb' 12 4 ∧ zero = word.extractLsb' 2 10) ∧ d = word.extractLsb' 1 1) ∧
      s = word.extractLsb' 0 1 :=
  append_eq_word_iff.trans
    (and_congr_left' (append_eq_extractLsb'_iff.trans (and_congr_left' append_eq_extractLsb'_iff)))

/-- The layout `STORE`, `LOAD` and `JZ` share. -/
theorem layout_selectedAddress {zero : BitVec 5} {sel : BitVec 1} {addr : BitVec 6} :
    tag ++ zero ++ sel ++ addr = word ↔
      ((tag = word.extractLsb' 12 4 ∧ zero = word.extractLsb' 7 5) ∧ sel = word.extractLsb' 6 1) ∧
        addr = word.extractLsb' 0 6 :=
  append_eq_word_iff.trans
    (and_congr_left' (append_eq_extractLsb'_iff.trans (and_congr_left' append_eq_extractLsb'_iff)))

/-- The layout of `JMP`. -/
theorem layout_address {zero addr : BitVec 6} : tag ++ zero ++ addr = word ↔
    (tag = word.extractLsb' 12 4 ∧ zero = word.extractLsb' 6 6) ∧ addr = word.extractLsb' 0 6 :=
  append_eq_word_iff.trans (and_congr_left' append_eq_extractLsb'_iff)

/-- The layout of `HLT`. -/
theorem layout_tag {zero : BitVec 12} : tag ++ zero = word ↔
    tag = word.extractLsb' 12 4 ∧ zero = word.extractLsb' 0 12 :=
  append_eq_word_iff

end

/-- A word that reads as an instruction is that instruction's image: its fields make up the word. -/
theorem encode_of_decodeImage {word : Word} {i : Instr} (hdec : decodeImage word = .ok i) : encode .w16 i = word := by
  cases hop : Opcode.ofTag (word.extractLsb' 12 4) with
  | none =>
    rw [decodeImage_of_badTag hop] at hdec
    cases hdec
  | some op =>
    have htag := tag_of_ofTag hop
    cases op with
    | ldi =>
      obtain rfl := (decodeImage_ldi htag.symm).mp hdec
      rw [encode_w16_ldi]
      exact layout_immediate.mpr ⟨⟨htag, sel_ofSel _⟩, BitVec.ofInt_toInt⟩
    | add =>
      obtain ⟨hzero, rfl⟩ := (decodeImage_add htag.symm).mp hdec
      rw [encode_w16_add]
      exact layout_registers.mpr ⟨⟨⟨htag, hzero.symm⟩, sel_ofSel _⟩, sel_ofSel _⟩
    | store =>
      obtain ⟨hzero, rfl⟩ := (decodeImage_store htag.symm).mp hdec
      rw [encode_w16_of_selectedAddress (payload_store _ _)]
      exact layout_selectedAddress.mpr ⟨⟨⟨htag, hzero.symm⟩, sel_ofSel _⟩, ofInt_toNat _⟩
    | load =>
      obtain ⟨hzero, rfl⟩ := (decodeImage_load htag.symm).mp hdec
      rw [encode_w16_of_selectedAddress (payload_load _ _)]
      exact layout_selectedAddress.mpr ⟨⟨⟨htag, hzero.symm⟩, sel_ofSel _⟩, ofInt_toNat _⟩
    | jmp =>
      obtain ⟨hzero, rfl⟩ := (decodeImage_jmp htag.symm).mp hdec
      rw [encode_w16_jmp]
      exact layout_address.mpr ⟨⟨htag, hzero.symm⟩, ofInt_toNat _⟩
    | jz =>
      obtain ⟨hzero, rfl⟩ := (decodeImage_jz htag.symm).mp hdec
      rw [encode_w16_of_selectedAddress (payload_jz _ _)]
      exact layout_selectedAddress.mpr ⟨⟨⟨htag, hzero.symm⟩, sel_ofSel _⟩, ofInt_toNat _⟩
    | hlt =>
      obtain ⟨hzero, rfl⟩ := (decodeImage_hlt htag.symm).mp hdec
      rw [encode_w16]
      exact layout_tag.mpr ⟨htag, hzero.symm⟩

/-- The eleven bits the image keeps of an `LDI` immediate hold it when it fits them. -/
theorem toInt_ofInt_slot {imm : Int} (h0 : -1024 ≤ imm) (h1 : imm ≤ 1023) : (BitVec.ofInt 11 imm).toInt = imm :=
  BitVec.toInt_ofInt_eq_self (by decide) (by omega) (by omega)

/-- An instruction whose operands fit the fields of its image word reads back from it. -/
theorem decodeImage_encode {i : Instr} (hvalid : i.wellFormed .w16 = true)
    (hslot : ∀ r imm, i = .ldi r imm → -1024 ≤ imm ∧ imm ≤ 1023) : decodeImage (encode .w16 i) = .ok i := by
  cases i with
  | ldi r imm =>
    obtain ⟨h0, h1⟩ := hslot r imm rfl
    obtain ⟨⟨htag, hsel⟩, himm⟩ := layout_immediate.mp (encode_w16_ldi r imm).symm
    exact (decodeImage_ldi htag.symm).mpr (by rw [← hsel, ← himm, ofSel_sel, toInt_ofInt_slot h0 h1])
  | add d s =>
    obtain ⟨⟨⟨htag, hzero⟩, hd⟩, hs⟩ := layout_registers.mp (encode_w16_add d s).symm
    exact (decodeImage_add htag.symm).mpr ⟨hzero.symm, by rw [← hd, ← hs, ofSel_sel, ofSel_sel]⟩
  | store r a =>
    rw [wellFormed_store] at hvalid
    obtain ⟨⟨⟨htag, hzero⟩, hsel⟩, haddr⟩ :=
      layout_selectedAddress.mp (encode_w16_of_selectedAddress (i := .store r a) (payload_store _ _)).symm
    exact (decodeImage_store htag.symm).mpr
      ⟨hzero.symm, by rw [← hsel, ← haddr, encodeEntry, ofSel_sel, toNat_ofInt_address hvalid]⟩
  | load r a =>
    rw [wellFormed_load] at hvalid
    obtain ⟨⟨⟨htag, hzero⟩, hsel⟩, haddr⟩ :=
      layout_selectedAddress.mp (encode_w16_of_selectedAddress (i := .load r a) (payload_load _ _)).symm
    exact (decodeImage_load htag.symm).mpr
      ⟨hzero.symm, by rw [← hsel, ← haddr, encodeEntry, ofSel_sel, toNat_ofInt_address hvalid]⟩
  | jmp a =>
    rw [wellFormed_jmp] at hvalid
    obtain ⟨⟨htag, hzero⟩, haddr⟩ := layout_address.mp (encode_w16_jmp a).symm
    exact (decodeImage_jmp htag.symm).mpr ⟨hzero.symm, by rw [← haddr, toNat_ofInt_address hvalid]⟩
  | jz r a =>
    rw [wellFormed_jz] at hvalid
    obtain ⟨⟨⟨htag, hzero⟩, hsel⟩, haddr⟩ :=
      layout_selectedAddress.mp (encode_w16_of_selectedAddress (i := .jz r a) (payload_jz _ _)).symm
    exact (decodeImage_jz htag.symm).mpr
      ⟨hzero.symm, by rw [← hsel, ← haddr, encodeEntry, ofSel_sel, toNat_ofInt_address hvalid]⟩
  | hlt => rfl

/-- Settles O7: the layouts of R82 are read in one direction and written in the other. -/
theorem imageWordsReadBack : Obligations.ImageWordsReadBack :=
  ⟨fun _ _ => encode_of_decodeImage, fun _ => decodeImage_encode⟩

/-- Settles O8: each word is evaluated. -/
theorem writtenOutWordsDecode : Obligations.WrittenOutWordsDecode := by
  unfold Obligations.WrittenOutWordsDecode
  decide

end Sys2Proof.Machine
end

section
/-! PROOFS. What each instruction but `ADD` does, and what it leaves alone: `LDI` (41_ldi_add.md R120), `LOAD` and
`STORE` (42_load_store.md R130, R131), `JMP`, `JZ` and `HLT` (43_control.md R141, R142, R144). -/

namespace Sys2Proof.Machine

section
variable {s t : State}

theorem sameMemory_of_mem_eq (h : t.mem = s.mem) : sameMemory s t := fun _ => by rw [h]

/-- A meaning that is not `ADD`'s leaves the flags alone. -/
theorem exec_keeps_flags {i : Instr} (h : exec i s = .next t) (hi : ∀ d src, i ≠ .add d src) : sameFlags s t := by
  refine Classical.byContradiction fun hflags => ?_
  obtain ⟨d, src, hadd⟩ := exec_flags h hflags
  exact hi d src hadd

/-- A meaning that is not `HLT`'s leaves `halted` alone. -/
theorem exec_keeps_halted {i : Instr} (h : exec i s = .next t) (hi : i ≠ .hlt) : t.halted = s.halted := by
  rw [Bool.eq_iff_iff, exec_halted h, or_iff_left hi]

/-- A general register that is no destination of the meaning keeps its value. -/
theorem exec_keeps_gpr {i : Instr} (h : exec i s = .next t) {q : Reg} (hldi : ∀ imm, i ≠ .ldi q imm)
    (hadd : ∀ src, i ≠ .add q src) (hload : ∀ a, i ≠ .load q a) : t.gpr q = s.gpr q := by
  refine Classical.byContradiction fun hne => ?_
  obtain ⟨imm, hi⟩ | ⟨src, hi⟩ | ⟨a, hi⟩ := exec_gpr h hne
  · exact hldi imm hi
  · exact hadd src hi
  · exact hload a hi

end

/-- Settles O10: the value written is `mask_w(imm)`, which writing masks again. -/
theorem ldiWritesTheMaskedImmediate : Obligations.LdiWritesTheMaskedImmediate := by
  intro r imm s
  obtain ⟨t, h⟩ : ∃ t, exec (.ldi r imm) s = .next t := ⟨_, rfl⟩
  have ht : t = ((s.writeResult r (mask s.wordLength imm)).recordFree .execute).advance :=
    (Host.Outcome.next.inj h).symm
  have hgpr : t.gpr r = mask s.wordLength imm := by simp [ht, mask_mask]
  have hDR : t.DR = mask s.wordLength imm := by simp [ht, mask_mask]
  have hPC : t.PC = mask s.wordLength (s.PC.toNat + 1) := by simp [ht]
  have hother (q : Reg) (hq : q ≠ r) : t.gpr q = s.gpr q := by simp [ht, hq.symm]
  have hAR : t.AR = s.AR := by simp [ht]
  have hmem : t.mem = s.mem := by simp [ht]
  exact ⟨t, h, hgpr, hDR, hPC, hother, hAR, exec_keeps_halted h nofun, exec_phase h, exec_keeps_flags h nofun,
    sameMemory_of_mem_eq hmem, exec_keeps h⟩

/-- Settles O13: the address is its own mask, and so is a cell of a memory of `w`-bit words. -/
theorem loadReadsTheCell : Obligations.LoadReadsTheCell := by
  intro r a s h0 h1 hfits
  obtain ⟨t, h⟩ : ∃ t, exec (.load r a) s = .next t := ⟨_, execLoad_of_inRange r s h0 h1⟩
  obtain ⟨-, ht⟩ := execLoad_next h
  have hcell : mask s.wordLength (s.mem.read a.toNat).toNat = s.mem.read a.toNat := mask_word (Memory.read_lt hfits _)
  have hgpr : t.gpr r = s.mem.read a.toNat := by simp [ht, hcell]
  have hDR : t.DR = s.mem.read a.toNat := by simp [ht, hcell]
  have hAR : (t.AR.toNat : Int) = a := by simpa [ht] using mask_address s.wordLength h0 (Int.le_of_lt h1)
  have hPC : t.PC = mask s.wordLength (s.PC.toNat + 1) := by simp [ht]
  have hother (q : Reg) (hq : q ≠ r) : t.gpr q = s.gpr q := by simp [ht, hq.symm]
  have hbus : t.bus = accessTrace a.toNat (s.mem.read a.toNat) s.draws := by simp [ht]
  have hmem : t.mem = s.mem := by simp [ht]
  exact ⟨t, h, hgpr, hDR, hAR, hPC, hother, exec_keeps_halted h nofun, exec_phase h, by rw [hbus]; rfl,
    by rw [hbus]; rfl, exec_keeps_flags h nofun, sameMemory_of_mem_eq hmem, exec_keeps h⟩

/-- The cells after `STORE`: `mask_w(x[r])` at its address, and every other as before. -/
theorem execStore_read {r : Reg} {a : Int} {s t : State} (h : exec (.store r a) s = .next t) (hwf : s.mem.wf = true)
    (b : Nat) : t.mem.read b = if b = a.toNat then mask s.wordLength (s.gpr r).toNat else s.mem.read b := by
  obtain ⟨-, rfl⟩ := execStore_next h
  simp [Memory.read_write (Memory.risingFrom_of_wf hwf), mask_mask]

/-- Settles O14: the cells by `execStore_read`, the rest from the state the two micro-steps leave. -/
theorem storeWritesOnlyItsCell : Obligations.StoreWritesOnlyItsCell := by
  intro r a s h0 h1 hwf
  obtain ⟨t, h⟩ : ∃ t, exec (.store r a) s = .next t := ⟨_, execStore_of_inRange r s h0 h1⟩
  obtain ⟨-, ht⟩ := execStore_next h
  have hcell : t.mem.read (effectiveAddress a).toNat = mask s.wordLength (s.gpr r).toNat :=
    (execStore_read h hwf _).trans (if_pos rfl)
  have hother (b : Nat) (hb : b ≠ (effectiveAddress a).toNat) : t.mem.read b = s.mem.read b :=
    (execStore_read h hwf b).trans (if_neg hb)
  have hAR : (t.AR.toNat : Int) = a := by
    simpa [ht, storeExecute, effectiveAddress] using mask_address s.wordLength h0 (Int.le_of_lt h1)
  have hDR : t.DR = mask s.wordLength (s.gpr r).toNat := by simp [ht]
  have hPC : t.PC = mask s.wordLength (s.PC.toNat + 1) := by simp [ht, storeExecute]
  have hbus := writeback_bus h
  exact ⟨t, h, hcell, hother, hAR, hDR, hPC, fun q => exec_keeps_gpr h nofun nofun nofun, exec_keeps_halted h nofun,
    exec_phase h, by rw [hbus]; rfl, by rw [hbus]; rfl, exec_keeps_flags h nofun, exec_keeps h⟩

/-- Settles O15: a target below 64 is its own mask. -/
theorem jmpSetsThePc : Obligations.JmpSetsThePc := by
  intro a s h0 h1
  obtain ⟨t, h⟩ : ∃ t, exec (.jmp a) s = .next t := ⟨_, rfl⟩
  have ht : t = (s.recordFree .execute).setReg .PC a := (Host.Outcome.next.inj h).symm
  have hPC : (t.PC.toNat : Int) = a := by simpa [ht] using mask_address s.wordLength h0 (Int.le_of_lt h1)
  have hDR : t.DR = s.DR := by simp [ht]
  have hAR : t.AR = s.AR := by simp [ht]
  have hmem : t.mem = s.mem := by simp [ht]
  exact ⟨t, h, hPC, fun q => exec_keeps_gpr h nofun nofun nofun, hDR, hAR, exec_keeps_halted h nofun, exec_phase h,
    exec_keeps_flags h nofun, sameMemory_of_mem_eq hmem, exec_keeps h⟩

/-- Settles O16: the two branches differ in `PC` only. -/
theorem jzBranchesOnExactZero : Obligations.JzBranchesOnExactZero := by
  intro r a s h0 h1
  obtain ⟨t, h⟩ : ∃ t, exec (.jz r a) s = .next t := ⟨_, rfl⟩
  have ht := execJz_next h
  have htaken (hzero : s.gpr r = 0) : (t.PC.toNat : Int) = a := by
    rw [ht, if_pos hzero]
    simpa using mask_address s.wordLength h0 (Int.le_of_lt h1)
  have hnotTaken (hne : s.gpr r ≠ 0) : t.PC = mask s.wordLength (s.PC.toNat + 1) := by
    rw [ht, if_neg hne]
    simp
  have hDR : t.DR = s.DR := by rw [ht]; split <;> simp
  have hAR : t.AR = s.AR := by rw [ht]; split <;> simp
  have hmem : t.mem = s.mem := by rw [ht]; split <;> simp
  exact ⟨t, h, htaken, hnotTaken, fun q => exec_keeps_gpr h nofun nofun nofun, hDR, hAR, exec_keeps_halted h nofun,
    exec_phase h, exec_keeps_flags h nofun, sameMemory_of_mem_eq hmem, exec_keeps h⟩

/-- Settles O17: `HLT` writes `halted` and the phase only. -/
theorem hltHaltsInPlace : Obligations.HltHaltsInPlace := by
  intro s
  obtain ⟨t, h⟩ : ∃ t, exec .hlt s = .next t := ⟨_, rfl⟩
  have ht : t = (s.recordFree .execute).halt := (Host.Outcome.next.inj h).symm
  have hPC : t.PC = s.PC := by simp [ht]
  have hDR : t.DR = s.DR := by simp [ht]
  have hAR : t.AR = s.AR := by simp [ht]
  have hmem : t.mem = s.mem := by simp [ht]
  exact ⟨t, h, (exec_halted h).mpr (.inr rfl), hPC, fun q => exec_keeps_gpr h nofun nofun nofun, hDR, hAR, exec_phase h,
    exec_keeps_flags h nofun, sameMemory_of_mem_eq hmem, exec_keeps h⟩

end Sys2Proof.Machine
end

section
/-! PROOFS. The statements about one step: fetch, execution and retirement (40_step_cycle.md R100 to R108), what is
refused (30_encoding.md R74), the phase (R111), and which instruction may change a part of the state (10_state.md R22,
R25, R26, R35; 20_memory.md R55). -/

namespace Sys2Proof.Machine

/-! ## Fetch (R103) -/

section
variable {e : Entry} {s t : State}

theorem fetch_of_outOfRange (e : Entry) (h : memorySize ≤ s.PC.toNat) :
    fetch e s = .error (.outOfRangeAddress s.PC.toNat) := by
  rw [fetch, State.memRead_of_outOfRange s (by omega)]
  rfl

theorem fetch_SP (h : fetch e s = .ok t) : t.SP = s.SP := by
  obtain ⟨-, rfl⟩ := fetch_ok h
  simp

theorem fetch_flags (h : fetch e s = .ok t) : sameFlags s t := by
  obtain ⟨-, rfl⟩ := fetch_ok h
  simp [sameFlags]

theorem fetch_phase (h : fetch e s = .ok t) : t.phase = .fetch := by
  obtain ⟨-, rfl⟩ := fetch_ok h
  simp

theorem fetch_prog (h : fetch e s = .ok t) : t.prog = s.prog := by
  obtain ⟨-, rfl⟩ := fetch_ok h
  simp

theorem fetch_IR (h : fetch e s = .ok t) : t.IR = e.op := by
  obtain ⟨-, rfl⟩ := fetch_ok h
  simp

theorem fetch_displayBase (h : fetch e s = .ok t) : t.displayBase = s.displayBase := by
  obtain ⟨-, rfl⟩ := fetch_ok h
  simp

end

/-- Settles O23: `PC` and the fetched cell are words of the current length, so writing them to `AR` and `DR` masks
nothing off. -/
theorem fetchCopiesTheMemoryWord : Obligations.FetchCopiesTheMemoryWord := by
  intro e s hpc hfits
  obtain ⟨t, h⟩ : ∃ t, fetch e s = .ok t := ⟨_, fetch_of_inRange e hpc⟩
  obtain ⟨-, ht⟩ := fetch_ok h
  have hcell : mask s.wordLength (s.mem.read s.PC.toNat).toNat = s.mem.read s.PC.toNat :=
    mask_word (Memory.read_lt hfits _)
  have hpcWord : mask s.wordLength s.PC.toNat = s.PC :=
    BitVec.eq_of_toNat_eq (Int.ofNat_inj.mp
      (mask_address s.wordLength (Int.natCast_nonneg _) (Int.ofNat_le.mpr (Nat.le_of_lt hpc))))
  have hDR : t.DR = s.mem.read s.PC.toNat := by simp [ht, hcell]
  have hAR : t.AR = s.PC := by simp [ht, hpcWord]
  have hbus := fetch_bus h
  exact ⟨t, h, hDR, hAR, fetch_IR h, fetch_phase h, by rw [hbus]; rfl, by rw [hbus]; rfl, fetch_gpr h, fetch_PC h,
    fetch_SP h, fetch_flags h, fetch_mem h, fetch_prog h, fetch_halted h, fetch_cycle h, fetch_wordLength h,
    fetch_displayBase h⟩

/-! ## The step from its parts (R100, R104, R105, R108) -/

section
variable {s : State} {e : Entry} {i : Instr}

theorem stepReport_of_undecoded {r : Refusal} (hrunning : s.halted = false) (hentry : s.prog[s.PC.toNat]? = some e)
    (hdec : decodeValid s.wordLength e = .error r) : stepReport s = .refused r := by
  simp only [stepReport, hrunning, Bool.false_eq_true, if_false, hentry, hdec]

theorem stepReport_of_decoded (hrunning : s.halted = false) (hentry : s.prog[s.PC.toNat]? = some e)
    (hdec : decodeValid s.wordLength e = .ok i) : stepReport s = runEntry e i s := by
  simp only [stepReport, hrunning, Bool.false_eq_true, if_false, hentry, hdec]

theorem outcome_runEntry {s1 : State} (hfetch : fetch e s = .ok s1) :
    (runEntry e i s).outcome s = retireOutcome (exec i s1) := by
  simp only [runEntry, hfetch]
  cases exec i s1 <;> rfl

end

/-! ## The step, by what its checks, its decode and its fetch answer (R100) -/

section
variable {s : State} {e : Entry} {i : Instr}

theorem step_of_halted (h : s.halted = true) : step s = .next s := by
  rw [step, stepReport_of_halted h]
  rfl

theorem step_of_noEntry (hrunning : s.halted = false) (hentry : s.prog[s.PC.toNat]? = none) :
    step s = .next s.halt := by
  rw [step, stepReport_of_fallThrough hrunning ((no_entry_iff s).mp hentry)]
  rfl

theorem step_of_undecoded {r : Refusal} (hrunning : s.halted = false) (hentry : s.prog[s.PC.toNat]? = some e)
    (hdec : decodeValid s.wordLength e = .error r) : step s = .refused r := by
  rw [step, stepReport_of_undecoded hrunning hentry hdec]
  rfl

theorem step_of_unfetched {f : Fault} (hrunning : s.halted = false) (hentry : s.prog[s.PC.toNat]? = some e)
    (hdec : decodeValid s.wordLength e = .ok i) (hfetch : fetch e s = .error f) : step s = .fault f := by
  rw [step, stepReport_of_decoded hrunning hentry hdec, runEntry, hfetch]
  rfl

theorem step_of_fetched {s1 : State} (hrunning : s.halted = false) (hentry : s.prog[s.PC.toNat]? = some e)
    (hdec : decodeValid s.wordLength e = .ok i) (hfetch : fetch e s = .ok s1) :
    step s = retireOutcome (exec i s1) := by
  rw [step, stepReport_of_decoded hrunning hentry hdec, outcome_runEntry hfetch]

/-- A machine at the instruction `i` fetches its entry, and retires what `exec` answers on the fetched state. -/
theorem step_of_runs (hruns : runs s i) :
    ∃ e s1, s.prog[s.PC.toNat]? = some e ∧ fetch e s = .ok s1 ∧ step s = retireOutcome (exec i s1) := by
  obtain ⟨hrunning, hpc, e, hentry, hdec, hvalid⟩ := hruns
  have hfetch := fetch_of_inRange e hpc
  exact ⟨e, _, hentry, hfetch, step_of_fetched hrunning hentry (decodeValid_eq_ok.mpr ⟨hdec, hvalid⟩) hfetch⟩

end

theorem retire_reg (s : State) (r : RegName) : (retire s).reg r = mask s.wordLength (s.reg r).toNat := by
  cases r <;> rfl

/-- Settles O22: the step by `step_of_runs`, and retirement field by field. -/
theorem stepRunsTheDecodedInstruction : Obligations.StepRunsTheDecodedInstruction := by
  refine ⟨fun s i hruns => ?step, fun _ => rfl, fun _ => rfl, fun _ => rfl, fun s => ?retire⟩
  case step =>
    obtain ⟨e, s1, hentry, hfetch, hstep⟩ := step_of_runs hruns
    exact ⟨s1, ⟨e, hentry, hfetch⟩, hstep⟩
  case retire =>
    exact ⟨retire_cycle s, retire_reg s, retire_mem s, ⟨retire_SF s, retire_OF s⟩, retire_IR s, retire_halted s,
      retire_phase s, retire_bus s, retire_prog s⟩

/-! ## What is refused (30_encoding.md R74) -/

theorem decodeValid_of_badTag (w : WordLength) {e : Entry} (h : Opcode.ofTag e.op = none) :
    decodeValid w e = .error (.illegalEntry (.badTag e.op)) := by
  rw [decodeValid, decodeEntry_of_badTag h]

theorem decodeValid_of_violation {w : WordLength} {e : Entry} {i : Instr} {v : Int} (hdec : decodeEntry e = .ok i)
    (hv : i.violation w = some v) : decodeValid w e = .error (.unvalidatedOperand v) := by
  simp only [decodeValid, hdec, hv]

/-- Settles O26: the step refuses what the decoder refuses. -/
theorem illegalEntriesAreRefused : Obligations.IllegalEntriesAreRefused := by
  intro s e hrunning hentry
  exact ⟨fun htag => step_of_undecoded hrunning hentry (decodeValid_of_badTag _ htag),
    fun i v hdec hv => step_of_undecoded hrunning hentry (decodeValid_of_violation hdec hv)⟩

/-! ## The phase (R111) -/

theorem ExecutedStep.phase {s t : State} {e : Entry} {i : Instr} {s1 s2 : State} (x : ExecutedStep s t e i s1 s2) :
    t.phase = reportedPhase i := by
  rw [x.retired, retire_phase, exec_phase x.executed]

/-- Settles O29: retirement leaves the phase of the meaning; the other two steps are those of R101 and R102. -/
theorem stepReportsThePhaseOfTheTable : Obligations.StepReportsThePhaseOfTheTable := by
  refine ⟨fun s t i hruns hstep => ?executed, fun s t hrunning hpc hstep => ?fallThrough,
    fun s t hhalted hstep => ?halted⟩
  case executed =>
    obtain ⟨e, s1, s2, x⟩ := executed_of_runs hruns hstep
    exact x.phase
  case fallThrough =>
    cases (step_of_noEntry hrunning ((no_entry_iff s).mpr hpc)).symm.trans hstep
    rfl
  case halted =>
    cases (step_of_halted hhalted).symm.trans hstep
    rfl

/-! ## What an executed step leaves alone, and which instruction may change it -/

section
variable {s t : State} {e : Entry} {i : Instr} {s1 s2 : State}

theorem ExecutedStep.keeps_config (x : ExecutedStep s t e i s1 s2) :
    t.prog = s.prog ∧ t.wordLength = s.wordLength ∧ t.displayBase = s.displayBase := by
  obtain ⟨-, -, -, hprog, hwidth, hbase⟩ := exec_keeps x.executed
  rw [x.retired, retire_prog, retire_wordLength, retire_displayBase, hprog, hwidth, hbase]
  exact ⟨fetch_prog x.fetched, fetch_wordLength x.fetched, fetch_displayBase x.fetched⟩

theorem ExecutedStep.wordLength (x : ExecutedStep s t e i s1 s2) : s2.wordLength = s.wordLength := by
  obtain ⟨-, -, -, -, hwidth, -⟩ := exec_keeps x.executed
  rw [hwidth, fetch_wordLength x.fetched]

theorem ExecutedStep.mem (x : ExecutedStep s t e i s1 s2) (hwf : s.mem.wf = true) {b : Nat}
    (hne : t.mem.read b ≠ s.mem.read b) : ∃ r a, i = .store r a ∧ b = a.toNat := by
  rw [x.retired, retire_mem] at hne
  rw [← fetch_mem x.fetched] at hwf hne
  exact exec_mem x.executed hwf hne

/-- The re-mask of R108 changes no register that holds a word of the current length. -/
theorem ExecutedStep.gpr (x : ExecutedStep s t e i s1 s2) {g : Reg} (hword : (s.gpr g).toNat < s.wordLength.modulus)
    (hne : t.gpr g ≠ s.gpr g) : (∃ imm, i = .ldi g imm) ∨ (∃ src, i = .add g src) ∨ (∃ a, i = .load g a) := by
  refine exec_gpr x.executed fun hsame => hne ?_
  rw [x.retired, retire_gpr, hsame, fetch_gpr x.fetched, x.wordLength, mask_word hword]

theorem ExecutedStep.flags (x : ExecutedStep s t e i s1 s2) (hne : ¬sameFlags s t) : ∃ d src, i = .add d src := by
  refine exec_flags x.executed fun ⟨hSF, hOF⟩ => hne ?_
  obtain ⟨hSF1, hOF1⟩ := fetch_flags x.fetched
  rw [x.retired]
  exact ⟨hSF.trans hSF1, hOF.trans hOF1⟩

end

theorem InvParts.gpr {s : State} (h : InvParts s) (g : Reg) : (s.gpr g).toNat < s.wordLength.modulus := by
  cases g with
  | A => exact h.a
  | B => exact h.b

/-- Settles O31: one case per kind of completed step. -/
theorem stepsKeepProgramAndConfiguration : Obligations.StepsKeepProgramAndConfiguration := by
  intro s t hstep
  rcases step_cases hstep with ⟨-, rfl⟩ | ⟨-, -, rfl⟩ | ⟨e, i, s1, s2, x⟩
  · exact ⟨rfl, rfl, rfl⟩
  · exact ⟨s.prog_halt, s.wordLength_halt, s.displayBase_halt⟩
  · exact x.keeps_config

/-- Settles O32: only an executed step can change a cell, and its instruction is the `STORE` of that cell. -/
theorem onlyStoreWritesMemory : Obligations.OnlyStoreWritesMemory := by
  intro s t b hinv hstep hne
  rcases step_cases hstep with ⟨-, rfl⟩ | ⟨-, -, rfl⟩ | ⟨e, i, s1, s2, x⟩
  · exact absurd rfl hne
  · exact absurd rfl hne
  · obtain ⟨r, a, rfl, hb⟩ := x.mem ((inv_iff s).mp hinv).memWf hne
    exact ⟨r, a, x.runs, hb⟩

/-- Settles O33: only an executed step can change a general register, and its instruction has it as destination. -/
theorem onlyLdiAddLoadWriteGeneralRegisters : Obligations.OnlyLdiAddLoadWriteGeneralRegisters := by
  intro s t g hinv hstep hne
  rcases step_cases hstep with ⟨-, rfl⟩ | ⟨-, -, rfl⟩ | ⟨e, i, s1, s2, x⟩
  · exact absurd rfl hne
  · exact absurd (s.gpr_halt g) hne
  · obtain ⟨imm, rfl⟩ | ⟨src, rfl⟩ | ⟨a, rfl⟩ := x.gpr (((inv_iff s).mp hinv).gpr g) hne
    · exact .inl ⟨imm, x.runs⟩
    · exact .inr (.inl ⟨src, x.runs⟩)
    · exact .inr (.inr ⟨a, x.runs⟩)

/-- Settles O34: only an executed step can change a flag, and its instruction is an `ADD`. -/
theorem onlyAddWritesTheFlags : Obligations.OnlyAddWritesTheFlags := by
  intro s t hstep hne
  rcases step_cases hstep with ⟨-, rfl⟩ | ⟨-, -, rfl⟩ | ⟨e, i, s1, s2, x⟩
  · exact absurd ⟨rfl, rfl⟩ hne
  · exact absurd ⟨s.SF_halt, s.OF_halt⟩ hne
  · obtain ⟨d, src, rfl⟩ := x.flags hne
    exact ⟨d, src, x.runs⟩

end Sys2Proof.Machine
end

section
/-! PROOFS. The invariant of 10_state.md R34: it holds at power-on, every step and every host command keeps it, and in a
state that has it a step completes (60_exceptions.md R202). -/

namespace Sys2Proof.Machine

/-! ## The image fits the word length -/

theorem modulus_pos (w : WordLength) : 0 < w.modulus := by cases w <;> decide

theorem encodeImage_of_badTag (w : WordLength) {e : Entry} (h : Opcode.ofTag e.op = none) : encodeImage w e = 0 := by
  rw [encodeImage, h]

/-- A tag over `w - 4` bits is a `w`-bit word. -/
theorem encodeImage_lt (w : WordLength) (e : Entry) : (encodeImage w e).toNat < w.modulus := by
  cases hop : Opcode.ofTag e.op with
  | none =>
    rw [encodeImage_of_badTag w hop]
    exact modulus_pos w
  | some op =>
    have hw := bits_bounds w
    have hbits : 4 + (w.bits - 4) = w.bits := by omega
    rw [encodeImage_eq_append w hop, BitVec.toNat_setWidth]
    calc (op.tag ++ (payload w op e).setWidth (w.bits - 4)).toNat % 2 ^ 16
      _ ≤ (op.tag ++ (payload w op e).setWidth (w.bits - 4)).toNat := Nat.mod_le _ _
      _ < 2 ^ (4 + (w.bits - 4)) := BitVec.isLt _
      _ = w.modulus := by rw [hbits, modulus_eq]

theorem Memory.fits_writeImage (w : WordLength) (es : List Entry) (i : Nat) {m : Memory} (h : m.fits w = true) :
    (Memory.writeImage w i es m).fits w = true := by
  induction es generalizing i m with
  | nil => exact h
  | cons e es ih => exact ih (i + 1) (Memory.fits_write h i (encodeImage_lt w e))

/-! ## Valid entries -/

theorem Entry.valid_encodeEntry {w : WordLength} {i : Instr} (h : i.wellFormed w = true) :
    Entry.valid w (encodeEntry i) = true :=
  Entry.valid_iff.mpr ⟨i, decodeOfEncodedEntryIsTheInstruction w i h, h⟩

/-- An entry valid at one width, whose operands pass validation at another, is valid there. -/
theorem Entry.valid_of_violation_none {w v : WordLength} {e : Entry} (h : Entry.valid w e = true)
    (hv : entryViolation v e = none) : Entry.valid v e = true := by
  obtain ⟨i, hdec, -⟩ := Entry.valid_iff.mp h
  rw [entryViolation_of_decoded hdec] at hv
  exact Entry.valid_iff.mpr ⟨i, hdec, (wellFormed_iff v i).mpr hv⟩

/-! ## Steps -/

theorem mask_SP (w : WordLength) : mask w (63 : Word).toNat = 63 := by cases w <;> decide

theorem InvParts.halt {s : State} (h : InvParts s) : InvParts s.halt :=
  ⟨h.a, h.b, h.dr, h.ar, h.pc, h.sp, h.memWf, h.memFits, h.size, h.valid⟩

section
variable {s t : State} {e : Entry} {i : Instr} {s1 s2 : State}

theorem ExecutedStep.SP (x : ExecutedStep s t e i s1 s2) (h : s.SP = 63) : t.SP = 63 := by
  obtain ⟨hSP, -⟩ := exec_keeps x.executed
  rw [x.retired, retire_SP, hSP, fetch_SP x.fetched, h, mask_SP]

theorem ExecutedStep.pc_le (x : ExecutedStep s t e i s1 s2) (hstep : step s = .next t) (hinv : s.Inv = true) :
    t.PC.toNat ≤ memorySize := by
  obtain ⟨hpc, -⟩ := fetch_ok x.fetched
  apply Int.ofNat_le.mp
  rw [stepWritesTheNextPcOfTheTable s t i hinv x.runs hstep]
  exact nextPC_le x.valid hpc

theorem ExecutedStep.keeps_memory (x : ExecutedStep s t e i s1 s2) (h : InvParts s) :
    t.mem.wf = true ∧ t.mem.fits s.wordLength = true := by
  have hkeeps := exec_keeps_memory x.executed
  rw [fetch_mem x.fetched, fetch_wordLength x.fetched] at hkeeps
  rw [x.retired, retire_mem]
  exact hkeeps h.memWf h.memFits

/-- Retirement masks the registers to the word length, which no step changes. -/
theorem ExecutedStep.inv (x : ExecutedStep s t e i s1 s2) (hstep : step s = .next t) (h : InvParts s) : InvParts t := by
  obtain ⟨hprog, hwidth, -⟩ := x.keeps_config
  obtain ⟨hwf, hfits⟩ := x.keeps_memory h
  have hmasked : t.A.toNat < t.wordLength.modulus ∧ t.B.toNat < t.wordLength.modulus ∧
      t.DR.toNat < t.wordLength.modulus ∧ t.AR.toNat < t.wordLength.modulus := by
    rw [x.retired]
    exact ⟨mask_lt _ _, mask_lt _ _, mask_lt _ _, mask_lt _ _⟩
  obtain ⟨hA, hB, hDR, hAR⟩ := hmasked
  exact {
    a := hA
    b := hB
    dr := hDR
    ar := hAR
    pc := x.pc_le hstep ((inv_iff s).mpr h)
    sp := x.SP h.sp
    memWf := hwf
    memFits := hwidth ▸ hfits
    size := hprog ▸ h.size
    valid := by rw [hprog, hwidth]; exact h.valid }

end

/-- Settles O40: one case per kind of completed step. -/
theorem everyStepKeepsTheInvariant : Obligations.EveryStepKeepsTheInvariant := by
  intro s t hinv hstep
  rw [inv_iff] at hinv ⊢
  rcases step_cases hstep with ⟨-, rfl⟩ | ⟨-, -, rfl⟩ | ⟨e, i, s1, s2, x⟩
  · exact hinv
  · exact hinv.halt
  · exact x.inv hstep hinv

/-- A running machine with the invariant and an entry at `PC` is at an instruction. -/
theorem InvParts.runs {s : State} (h : InvParts s) (hrunning : s.halted = false) {e : Entry}
    (hentry : s.prog[s.PC.toNat]? = some e) : ∃ i, Machine.runs s i := by
  obtain ⟨hlt, -⟩ := List.getElem?_eq_some_iff.mp hentry
  obtain ⟨i, hdec, hvalid⟩ := Entry.valid_iff.mp (h.valid e (List.mem_of_getElem? hentry))
  exact ⟨i, hrunning, Nat.lt_of_lt_of_le hlt h.size, e, hentry, hdec, hvalid⟩

/-- The step of a machine at an instruction completes: its operands are valid, so `exec` answers a next state. -/
theorem step_completes_of_runs {s : State} {i : Instr} (hruns : runs s i) : ∃ t, step s = .next t := by
  obtain ⟨e, s1, -, hfetch, hstep⟩ := step_of_runs hruns
  obtain ⟨-, -, -, -, -, hvalid⟩ := hruns
  rw [← fetch_wordLength hfetch] at hvalid
  obtain ⟨s2, hexec⟩ := exec_completes hvalid
  exact ⟨retire s2, by rw [hstep, hexec, retireOutcome]⟩

/-- Settles O41: a machine with the invariant is halted, past its program, or at an instruction. -/
theorem loadedProgramsNeverFault : Obligations.LoadedProgramsNeverFault := by
  intro s hinv
  cases hhalted : s.halted with
  | true => exact ⟨s, step_of_halted hhalted⟩
  | false =>
    cases hentry : s.prog[s.PC.toNat]? with
    | none => exact ⟨s.halt, step_of_noEntry hhalted hentry⟩
    | some e =>
      obtain ⟨i, hruns⟩ := ((inv_iff s).mp hinv).runs hhalted hentry
      exact step_completes_of_runs hruns

/-! ## Power-on, load and reset -/

/-- A reset with the store `es` establishes the invariant when `es` fits the memory and its entries are valid. -/
theorem inv_reloaded {s : State} {es : List Entry} (q : Phase) (hsize : es.length ≤ memorySize)
    (hvalid : ∀ e ∈ es, Entry.valid s.wordLength e = true) : InvParts (s.reloaded es q) := by
  have hzero : (0 : Word).toNat < s.wordLength.modulus := modulus_pos s.wordLength
  exact {
    a := hzero
    b := hzero
    dr := hzero
    ar := hzero
    pc := Nat.zero_le memorySize
    sp := rfl
    memWf := Memory.wf_writeImage s.wordLength es 0 Memory.wf_nil (by omega)
    memFits := Memory.fits_writeImage s.wordLength es 0 rfl
    size := hsize
    valid := hvalid }

/-- Settles O39: power-on is a reset with an empty store, at whichever word length. -/
theorem powerOnSatisfiesTheInvariant : Obligations.PowerOnSatisfiesTheInvariant := by
  unfold Obligations.PowerOnSatisfiesTheInvariant
  rw [inv_iff, State.reset_eq_reloaded]
  exact inv_reloaded .idle (Nat.zero_le _) nofun

theorem inv_hostReset {s : State} (h : InvParts s) : InvParts s.hostReset := by
  rw [State.hostReset_eq_reloaded]
  exact inv_reloaded .idle h.size h.valid

theorem inv_commit {s : State} {p : List Instr} (hsize : p.length ≤ memorySize)
    (hvalid : ∀ x ∈ p, x.wellFormed s.wordLength = true) : InvParts (s.commit p) := by
  rw [State.commit_eq_reloaded]
  refine inv_reloaded .ready (by rwa [List.length_map]) fun e he => ?_
  obtain ⟨x, hx, rfl⟩ := List.mem_map.mp he
  exact Entry.valid_encodeEntry (hvalid x hx)

theorem loadInstrs_keeps_inv {s : State} (h : InvParts s) (p : List Instr) : InvParts (loadInstrs p s).state := by
  rcases Nat.lt_or_ge 64 p.length with hlarge | hfits
  · rw [loadInstrs_of_tooLarge hlarge]
    exact h
  · cases hv : validate p s.wordLength with
    | error e =>
      rw [loadInstrs_of_invalid hfits hv]
      exact h
    | ok _ =>
      rw [loadInstrs_of_valid hfits hv]
      exact inv_commit hfits ((validate_eq_ok_iff p s.wordLength).mp hv)

theorem loadProgram_keeps_inv {s : State} (h : InvParts s) (text : String) : InvParts (loadProgram text s).state := by
  cases hparse : parse text with
  | error e =>
    rw [loadProgram_of_parse_error s hparse]
    exact h
  | ok p =>
    rw [loadProgram_of_parse_ok s hparse]
    exact loadInstrs_keeps_inv h p

/-! ## A change of the word length -/

/-- `PC` and `SP` are at most 64, so a change of the word length keeps them; every other register and cell is masked. -/
theorem inv_commitWidth {s : State} {w : WordLength} (h : InvParts s)
    (hvalid : ∀ e ∈ s.prog, Entry.valid w e = true) : InvParts (s.commitWidth w) := by
  have hpc : ((mask w s.PC.toNat).toNat : Int) = s.PC.toNat :=
    mask_address w (Int.natCast_nonneg _) (Int.ofNat_le.mpr h.pc)
  exact {
    a := mask_lt w _
    b := mask_lt w _
    dr := mask_lt w _
    ar := mask_lt w _
    pc := Nat.le_trans (Nat.le_of_eq (Int.ofNat_inj.mp hpc)) h.pc
    sp := (congrArg (fun v : Word => mask w v.toNat) h.sp).trans (mask_SP w)
    memWf := Memory.wf_writeImage w s.prog 0 (Memory.wf_maskCells h.memWf w) (by simpa using h.size)
    memFits := Memory.fits_writeImage w s.prog 0 (Memory.fits_maskCells w s.mem)
    size := h.size
    valid := hvalid }

theorem setWordLength_keeps_inv {s : State} (h : InvParts s) (bits : Int) : InvParts (setWordLength bits s).state := by
  cases hw : wordLengthOf bits with
  | none =>
    rw [setWordLength_of_unsupported s hw]
    exact h
  | some w =>
    obtain rfl : (w.bits : Int) = bits := bits_of_wordLengthOf hw
    cases hv : validateStore w 0 s.prog with
    | error e =>
      rw [setWordLength_of_invalid hv]
      exact h
    | ok _ =>
      rw [setWordLength_of_valid hv]
      rw [validateStore_eq_firstViolation, firstViolation_eq_ok_iff] at hv
      exact inv_commitWidth h fun e he => Entry.valid_of_violation_none (h.valid e he) (hv e he)

/-! ## Steps and runs as commands -/

/-- The step command reports a step that completes, and fails with the error of one that does not. -/
theorem stepCommand_cases (s : State) :
    (∃ t report, step s = .next t ∧ (stepCommand s).state = t ∧ (stepCommand s).response = .report report) ∨
    (∃ f, step s = .fault f ∧ stepCommand s = .failed s (.fatalExecution f)) ∨
    (∃ r, step s = .refused r ∧ stepCommand s = .failed s (.refusedExecution r)) := by
  unfold step stepCommand
  cases stepReport s with
  | ok after record => exact .inl ⟨_, _, rfl, rfl, rfl⟩
  | halted => exact .inl ⟨_, _, rfl, rfl, rfl⟩
  | noInstruction after => exact .inl ⟨_, _, rfl, rfl, rfl⟩
  | fault f => exact .inr (.inl ⟨f, rfl, rfl⟩)
  | refused r => exact .inr (.inr ⟨r, rfl, rfl⟩)

/-- What every step keeps, the step command keeps, failed or not. -/
theorem stepCommand_keeps {P : State → Prop} (hkeeps : ∀ s t, P s → step s = .next t → P t) {s : State} (h : P s) :
    P (stepCommand s).state := by
  rcases stepCommand_cases s with ⟨t, report, hstep, hstate, -⟩ | ⟨f, -, hfailed⟩ | ⟨r, -, hfailed⟩
  · rw [hstate]
    exact hkeeps s t h hstep
  · rw [hfailed]
    exact h
  · rw [hfailed]
    exact h

/-- What every step keeps, a run keeps. -/
theorem runLoop_keeps {P : State → Prop} (hkeeps : ∀ s t, P s → step s = .next t → P t) (maxSteps fuel : Nat)
    {s : State} (h : P s) : P (runLoop maxSteps fuel s).state := by
  induction fuel generalizing s with
  | zero => exact h
  | succ fuel ih =>
    unfold runLoop
    split
    · exact h
    · dsimp only
      split
      · exact ih (stepCommand_keeps hkeeps h)
      · exact stepCommand_keeps hkeeps h

/-- Settles O42: a step by O40, the others by the state they commit. -/
theorem everyHostCommandKeepsTheInvariant : Obligations.EveryHostCommandKeepsTheInvariant := by
  intro c s hinv
  have h := (inv_iff s).mp hinv
  cases c with
  | loadProgram text => exact (inv_iff _).mpr (loadProgram_keeps_inv h text)
  | step => exact stepCommand_keeps everyStepKeepsTheInvariant hinv
  | reset => exact (inv_iff _).mpr (inv_hostReset h)
  | setWordLength bits => exact (inv_iff _).mpr (setWordLength_keeps_inv h bits)
  | setDisplayBase base =>
    rcases setDisplayBase_state base s with hsame | ⟨b, hbase⟩
    · rw [command, hsame, hinv]
    · rw [command, hbase]
      exact hinv
  | runUntilHalt n => exact runLoop_keeps everyStepKeepsTheInvariant n n hinv

end Sys2Proof.Machine
end

section
/-! PROOFS. The statements about stored words: the canonical form determines a memory (20_memory.md R50, log 4), and a
`LOAD` right after a `STORE` to its address returns the stored word (70_reset_and_hazards.md R236). -/

namespace Sys2Proof.Machine

/-! ## Canonical memories -/

theorem Memory.risingFrom_cons_iff {lo a : Nat} {v : Word} {m : Memory} :
    Memory.risingFrom lo ((a, v) :: m) = true ↔ lo ≤ a ∧ v ≠ 0 ∧ Memory.risingFrom (a + 1) m = true := by
  simp only [Memory.risingFrom, Bool.and_eq_true, decide_eq_true_eq, and_assoc]

@[simp] theorem Memory.read_head (a : Nat) (v : Word) (m : Memory) : Memory.read ((a, v) :: m) a = v :=
  if_pos rfl

theorem Memory.read_tail {a b : Nat} (h : a ≠ b) (v : Word) (m : Memory) : Memory.read ((a, v) :: m) b = m.read b :=
  if_neg h

theorem Memory.le_of_read_ne_zero {lo a : Nat} {m : Memory} (h : Memory.risingFrom lo m = true) (ha : m.read a ≠ 0) :
    lo ≤ a :=
  Nat.le_of_not_lt fun hlt => ha (Memory.read_below h hlt)

/-- The first listed address is the least one that does not read 0, so two canonical memories list the same cells one
by one. -/
theorem Memory.eq_of_read_eq {lo : Nat} {m n : Memory} (hm : Memory.risingFrom lo m = true)
    (hn : Memory.risingFrom lo n = true) (hread : ∀ a, m.read a = n.read a) : m = n := by
  induction m generalizing lo n with
  | nil =>
    cases n with
    | nil => rfl
    | cons c n =>
      obtain ⟨b, u⟩ := c
      obtain ⟨-, hu, -⟩ := Memory.risingFrom_cons_iff.mp hn
      exact absurd ((hread b).trans (Memory.read_head b u n)).symm hu
  | cons c m ih =>
    obtain ⟨a, v⟩ := c
    obtain ⟨-, hv, hm⟩ := Memory.risingFrom_cons_iff.mp hm
    cases n with
    | nil => exact absurd ((Memory.read_head a v m).symm.trans (hread a)) hv
    | cons d n =>
      obtain ⟨b, u⟩ := d
      obtain ⟨-, hu, hn⟩ := Memory.risingFrom_cons_iff.mp hn
      have hba : b ≤ a := by
        refine Memory.le_of_read_ne_zero (Memory.risingFrom_cons_iff.mpr ⟨Nat.le_refl b, hu, hn⟩) ?_
        rwa [← hread, Memory.read_head]
      have hab : a ≤ b := by
        refine Memory.le_of_read_ne_zero (Memory.risingFrom_cons_iff.mpr ⟨Nat.le_refl a, hv, hm⟩) ?_
        rwa [hread, Memory.read_head]
      obtain rfl := Nat.le_antisymm hab hba
      have hhead : v = u := by simpa using hread a
      have htail (x : Nat) : Memory.read m x = Memory.read n x := by
        rcases Nat.lt_or_ge x (a + 1) with hlt | hge
        · rw [Memory.read_below hm hlt, Memory.read_below hn hlt]
        · have hne : a ≠ x := by omega
          rw [← Memory.read_tail hne v m, hread, Memory.read_tail hne u n]
      rw [hhead, ih hm hn htail]

/-- Settles O21: the addresses of a canonical memory rise from 0. -/
theorem canonicalMemoriesThatReadAlikeAreEqual : Obligations.CanonicalMemoriesThatReadAlikeAreEqual :=
  fun _ _ hm hn => Memory.eq_of_read_eq (Memory.risingFrom_of_wf hm) (Memory.risingFrom_of_wf hn)

/-! ## A `STORE`, then a `LOAD` -/

section
variable {s t : State} {e : Entry} {r : Reg} {a : Int} {s1 s2 : State}

/-- The cell an executed `STORE` writes holds the word of its register. -/
theorem ExecutedStep.store_read (x : ExecutedStep s t e (.store r a) s1 s2) (h : InvParts s) :
    t.mem.read a.toNat = s.gpr r := by
  have hwf : s1.mem.wf = true := by rw [fetch_mem x.fetched]; exact h.memWf
  rw [x.retired, retire_mem, execStore_read x.executed hwf, if_pos rfl, fetch_gpr x.fetched,
    fetch_wordLength x.fetched, mask_word (h.gpr r)]

/-- The register an executed `LOAD` writes holds the word of its cell. -/
theorem ExecutedStep.load_gpr (x : ExecutedStep s t e (.load r a) s1 s2) (h : InvParts s) :
    t.gpr r = s.mem.read a.toNat := by
  obtain ⟨-, ht⟩ := execLoad_next x.executed
  have hgpr : s2.gpr r = mask s1.wordLength (s1.mem.read a.toNat).toNat := by simp [ht]
  have hword := Memory.read_lt h.memFits a.toNat
  rw [x.retired, retire_gpr, x.wordLength, hgpr, fetch_wordLength x.fetched, fetch_mem x.fetched, mask_mask,
    mask_word hword]

end

/-- Settles O20: the stored word is in the cell when the `LOAD` reads it, since the state between has the invariant. -/
theorem loadAfterStoreReturnsTheStoredValue : Obligations.LoadAfterStoreReturnsTheStoredValue := by
  intro r q a s t u hinv hstore hstep hload hstep'
  obtain ⟨_, _, _, x⟩ := executed_of_runs hstore hstep
  obtain ⟨_, _, _, y⟩ := executed_of_runs hload hstep'
  have hinv' := everyStepKeepsTheInvariant s t hinv hstep
  rw [y.load_gpr ((inv_iff t).mp hinv'), x.store_read ((inv_iff s).mp hinv)]

end Sys2Proof.Machine
end

section
/-! PROOFS. The statements about host input and runs: what validation reports (45_host_commands.md R163), how
`runUntilHalt` ends (R172, R173), and how many instructions a source gives (30_encoding.md R90). -/

namespace Sys2Proof.Machine

/-! ## Validation (R163) -/

theorem validate_eq_rangeError_iff (p : List Instr) (w : WordLength) (k : Nat) (v : Int) :
    validate p w = .error (.rangeError k v) ↔ ViolatesFirst (Instr.violation w) p k v := by
  rw [validate, validateFrom_eq_firstViolation, firstViolation_eq_rangeError_iff]

theorem violation_ldi (w : WordLength) (r : Reg) (imm : Int) : (Instr.ldi r imm).violation w =
    if -(2 ^ (w.bits - 1) : Nat) ≤ imm ∧ imm ≤ (2 ^ (w.bits - 1) : Nat) - 1 then none else some imm := by
  simp only [Instr.violation, immediateInRange_iff, half_eq]

/-- The check `STORE`, `LOAD`, `JMP` and `JZ` share. -/
theorem address_check (a : Int) : (if addressInRange a = true then none else some a) =
    if 0 ≤ a ∧ a < 64 then none else some a := by
  simp only [addressInRange_iff]

/-- Settles O44: the two outcomes of the search, and the range of each opcode. -/
theorem validationReportsTheFirstViolation : Obligations.ValidationReportsTheFirstViolation := by
  refine ⟨fun p w k v => ?first, validate_eq_ok_iff, violation_ldi,
    fun w r a => ⟨address_check a, address_check a, address_check a, address_check a⟩, fun w d src => ⟨rfl, rfl⟩⟩
  case first => simp only [validate_eq_rangeError_iff, ViolatesFirst, wellFormed_iff]

/-! ## The step command, by the outcome of its step (R166) -/

section
variable {s : State}

theorem stepCommand_of_next {t : State} (h : step s = .next t) :
    (stepCommand s).state = t ∧ ∃ report, (stepCommand s).response = .report report := by
  rcases stepCommand_cases s with ⟨u, report, hu, hstate, hresponse⟩ | ⟨f, hf, -⟩ | ⟨r, hr, -⟩
  · cases hu.symm.trans h
    exact ⟨hstate, report, hresponse⟩
  · cases hf.symm.trans h
  · cases hr.symm.trans h

theorem stepCommand_of_fault {f : Fault} (h : step s = .fault f) : stepCommand s = .failed s (.fatalExecution f) := by
  rcases stepCommand_cases s with ⟨u, report, hu, -⟩ | ⟨g, hg, hfailed⟩ | ⟨r, hr, -⟩
  · cases hu.symm.trans h
  · cases hg.symm.trans h
    exact hfailed
  · cases hr.symm.trans h

theorem stepCommand_of_refused {r : Refusal} (h : step s = .refused r) :
    stepCommand s = .failed s (.refusedExecution r) := by
  rcases stepCommand_cases s with ⟨u, report, hu, -⟩ | ⟨f, hf, -⟩ | ⟨q, hq, hfailed⟩
  · cases hu.symm.trans h
  · cases hf.symm.trans h
  · cases hq.symm.trans h
    exact hfailed

/-! ## The run loop, by the outcome of its first step (R172) -/

variable {maxSteps fuel : Nat}

theorem runLoop_of_halted (h : s.halted = true) : runLoop maxSteps fuel s = ⟨s, .snapshot s.snapshot, .none⟩ := by
  cases fuel with
  | zero => rw [runLoop, if_pos h]
  | succ fuel => rw [runLoop, if_pos h]

theorem runLoop_zero_of_running (h : s.halted = false) :
    runLoop maxSteps 0 s = ⟨s, .error (.nonTermination maxSteps), .none⟩ := by
  rw [runLoop, h]
  rfl

theorem runLoop_of_next {t : State} (hrunning : s.halted = false) (h : step s = .next t) :
    (runLoop maxSteps (fuel + 1) s).state = (runLoop maxSteps fuel t).state ∧
      (runLoop maxSteps (fuel + 1) s).response = (runLoop maxSteps fuel t).response := by
  obtain ⟨hstate, report, hresponse⟩ := stepCommand_of_next h
  simp [runLoop, hrunning, hresponse, hstate]

theorem runLoop_of_fault {f : Fault} (hrunning : s.halted = false) (h : step s = .fault f) :
    runLoop maxSteps (fuel + 1) s = .failed s (.fatalExecution f) := by
  simp [runLoop, hrunning, stepCommand_of_fault h, Reply.failed]

theorem runLoop_of_refused {r : Refusal} (hrunning : s.halted = false) (h : step s = .refused r) :
    runLoop maxSteps (fuel + 1) s = .failed s (.refusedExecution r) := by
  simp [runLoop, hrunning, stepCommand_of_refused h, Reply.failed]

end

/-! ## How a run ends (R172, R173) -/

theorem core_run_succ {s t : State} (k : Nat) (h : step s = .next t) :
    Host.Core.run Sys2Proof.core (k + 1) s = Host.Core.run Sys2Proof.core k t := by
  have hstep : Sys2Proof.core.step s = .next t := h
  simp only [Host.Core.run, hstep]

/-- A step that starts and ends running executed an instruction, and so counted one cycle. -/
theorem cycle_of_still_running {s t : State} (hrunning : s.halted = false) (hstep : step s = .next t)
    (hstill : t.halted = false) : t.cycle = s.cycle + 1 := by
  have hentry : ¬s.prog.length ≤ s.PC.toNat := fun hpc => by
    rw [(step_halts_iff hstep hrunning).mpr (.inr hpc)] at hstill
    cases hstill
  rw [cycleCountsExecutedSteps s t hstep, if_neg (by simp [hrunning, hentry])]

/-- The end of a run of at most `fuel` steps from `s`: halted with the snapshot, or still running with `fuel` more
executed steps. -/
def Reply.EndsRun (maxSteps fuel : Nat) (s : State) (r : Reply) : Prop :=
  (r.state.halted = true ∧ r.response = .snapshot r.state.snapshot) ∨
    (r.state.halted = false ∧ r.response = .error (.nonTermination maxSteps) ∧ r.state.cycle = s.cycle + fuel)

theorem runLoop_endsRun (maxSteps fuel : Nat) {s : State} (hinv : s.Inv = true) :
    (runLoop maxSteps fuel s).EndsRun maxSteps fuel s := by
  induction fuel generalizing s with
  | zero =>
    cases hhalted : s.halted with
    | true => rw [runLoop_of_halted hhalted]; exact .inl ⟨hhalted, rfl⟩
    | false => rw [runLoop_zero_of_running hhalted]; exact .inr ⟨hhalted, rfl, rfl⟩
  | succ fuel ih =>
    cases hhalted : s.halted with
    | true => rw [runLoop_of_halted hhalted]; exact .inl ⟨hhalted, rfl⟩
    | false =>
      obtain ⟨t, hstep⟩ := loadedProgramsNeverFault s hinv
      obtain ⟨hstate, hresponse⟩ := runLoop_of_next (maxSteps := maxSteps) (fuel := fuel) hhalted hstep
      have hrest := ih (everyStepKeepsTheInvariant s t hinv hstep)
      unfold Reply.EndsRun at hrest ⊢
      rw [hstate, hresponse]
      refine hrest.imp_right fun ⟨hrunning, herror, hcycle⟩ => ⟨hrunning, herror, ?_⟩
      have hstill : t.halted = false := Bool.eq_false_iff.mpr fun ht => by
        rw [runLoop_of_halted ht, ht] at hrunning
        cases hrunning
      rw [hcycle, cycle_of_still_running hhalted hstep hstill]
      omega

theorem runLoop_state_is_run (maxSteps fuel : Nat) {s : State} (hinv : s.Inv = true) :
    ∃ k, k ≤ fuel ∧ Host.Core.run Sys2Proof.core k s = .next (runLoop maxSteps fuel s).state := by
  induction fuel generalizing s with
  | zero => exact ⟨0, Nat.le_refl 0, rfl⟩
  | succ fuel ih =>
    cases hhalted : s.halted with
    | true =>
      rw [runLoop_of_halted hhalted]
      exact ⟨0, Nat.zero_le _, rfl⟩
    | false =>
      obtain ⟨t, hstep⟩ := loadedProgramsNeverFault s hinv
      obtain ⟨hstate, -⟩ := runLoop_of_next (maxSteps := maxSteps) (fuel := fuel) hhalted hstep
      obtain ⟨k, hk, hrun⟩ := ih (everyStepKeepsTheInvariant s t hinv hstep)
      exact ⟨k + 1, Nat.succ_le_succ hk, by rw [core_run_succ k hstep, hrun, hstate]⟩

/-- Settles O49: by induction on the steps left. -/
theorem runUntilHaltHaltsOrExhaustsTheBudget : Obligations.RunUntilHaltHaltsOrExhaustsTheBudget := by
  intro maxSteps s hinv
  refine ⟨runLoop_endsRun maxSteps maxSteps hinv, runLoop_state_is_run maxSteps maxSteps hinv, fun hhalted => ?_⟩
  exact congrArg Reply.state (runLoop_of_halted hhalted)

/-! ## The length of a parsed program (30_encoding.md R90) -/

/-- The lines that hold an instruction: neither blank nor comment-only. -/
def instructionLines (ls : List (List Char)) : List (List Char) :=
  ls.filter fun l => decide (trim (stripComment l) ≠ [])

theorem instructionLines_cons_of_blank {l : List Char} (ls : List (List Char)) (h : trim (stripComment l) = []) :
    instructionLines (l :: ls) = instructionLines ls :=
  List.filter_cons_of_neg (by simp [h])

theorem instructionLines_cons_of_ne {l : List Char} (ls : List (List Char)) (h : trim (stripComment l) ≠ []) :
    instructionLines (l :: ls) = l :: instructionLines ls :=
  List.filter_cons_of_pos (by simp [h])

theorem length_of_parseLines {n : Nat} {ls : List (List Char)} {p : List Instr} (h : parseLines n ls = .ok p) :
    p.length = (instructionLines ls).length := by
  induction ls generalizing n p with
  | nil =>
    cases h
    rfl
  | cons l ls ih =>
    by_cases hblank : trim (stripComment l) = []
    · rw [parseLines_blank hblank] at h
      rw [ih h, instructionLines_cons_of_blank ls hblank]
    · rw [instructionLines_cons_of_ne ls hblank, List.length_cons]
      cases hline : parseLine (trim (stripComment l)) with
      | error why =>
        rw [parseLines_invalid hblank hline] at h
        cases h
      | ok i =>
        rw [parseLines_valid hblank hline] at h
        cases hrest : parseLines (n + 1) ls with
        | error e =>
          rw [hrest] at h
          cases h
        | ok q =>
          rw [hrest] at h
          cases h
          rw [List.length_cons, ih hrest]

/-- A parse that succeeds is that of its lines, which give at least one instruction. -/
theorem parse_ok {text : String} {p : List Instr} (h : parse text = .ok p) :
    parseLines 1 (splitAtChar '\n' text.toList) = .ok p ∧ p ≠ [] := by
  unfold parse at h
  split at h
  next => cases h
  next => cases h
  next i is hlines =>
    cases h
    exact ⟨hlines, List.cons_ne_nil i is⟩

/-- Settles O51: by induction on the lines. -/
theorem parsedProgramsHaveOneInstructionPerLine : Obligations.ParsedProgramsHaveOneInstructionPerLine := by
  intro text p hparse
  obtain ⟨hlines, hne⟩ := parse_ok hparse
  exact ⟨hne, length_of_parseLines hlines⟩

end Sys2Proof.Machine
end

section
/-! PROOFS. Noninterference: what stored data (20_memory.md R61, R66), the phase (40_step_cycle.md R111) and the display
base (10_state.md R32) cannot reach. -/

namespace Sys2Proof.Machine

/-! ## Two runs of one meaning on states that agree where it reads -/

section
variable {i : Instr} {s u t v : State}

/-- Only `LOAD` moves memory into a general register. -/
theorem exec_gpr_congr (ht : exec i s = .next t) (hv : exec i u = .next v) (hwidth : u.wordLength = s.wordLength)
    (hgpr : ∀ g, u.gpr g = s.gpr g) (hload : ∀ r a, i ≠ .load r a) (g : Reg) : v.gpr g = t.gpr g := by
  cases i with
  | ldi r imm =>
    cases ht
    cases hv
    simp [immediateValue, hwidth, hgpr]
  | add d src => simp [execAdd_next ht, execAdd_next hv, hwidth, hgpr]
  | store r a => rw [exec_keeps_gpr hv nofun nofun nofun, exec_keeps_gpr ht nofun nofun nofun, hgpr]
  | load r a => exact absurd rfl (hload r a)
  | jmp a => rw [exec_keeps_gpr hv nofun nofun nofun, exec_keeps_gpr ht nofun nofun nofun, hgpr]
  | jz r a => rw [exec_keeps_gpr hv nofun nofun nofun, exec_keeps_gpr ht nofun nofun nofun, hgpr]
  | hlt => rw [exec_keeps_gpr hv nofun nofun nofun, exec_keeps_gpr ht nofun nofun nofun, hgpr]

/-- The flags are computed from general registers, or kept. -/
theorem exec_flags_congr (ht : exec i s = .next t) (hv : exec i u = .next v) (hwidth : u.wordLength = s.wordLength)
    (hgpr : ∀ g, u.gpr g = s.gpr g) (hflags : sameFlags s u) : sameFlags t v := by
  by_cases hadd : ∃ d src, i = .add d src
  · obtain ⟨d, src, rfl⟩ := hadd
    simp [sameFlags, execAdd_next ht, execAdd_next hv, hwidth, hgpr]
  · obtain ⟨hSF, hOF⟩ := hflags
    obtain ⟨hSFt, hOFt⟩ := exec_keeps_flags ht fun d src hi => hadd ⟨d, src, hi⟩
    obtain ⟨hSFv, hOFv⟩ := exec_keeps_flags hv fun d src hi => hadd ⟨d, src, hi⟩
    exact ⟨by rw [hSFv, hSF, hSFt], by rw [hOFv, hOF, hOFt]⟩

end

/-! ## Stored data (20_memory.md R61, R66) -/

theorem nextPC_setMem (i : Instr) (s : State) (m : Memory) : nextPC i (s.setMem m) = nextPC i s := by
  cases i with
  | jz r a => rw [nextPC, State.gpr_setMem]; rfl
  | _ => rfl

theorem ExecutedStep.IR {s t : State} {e : Entry} {i : Instr} {s1 s2 : State} (x : ExecutedStep s t e i s1 s2) :
    t.IR = e.op := by
  obtain ⟨-, hIR, -⟩ := exec_keeps x.executed
  rw [x.retired, retire_IR, hIR, fetch_IR x.fetched]

theorem runs_setMem {s : State} {i : Instr} (m : Memory) (h : runs s i) : runs (s.setMem m) i := h

section
variable {s t u : State} {m : Memory} {i : Instr} {e e' : Entry} {s1 s2 u1 u2 : State}

theorem ExecutedStep.pc_setMem (x : ExecutedStep s t e i s1 s2) (y : ExecutedStep (s.setMem m) u e' i u1 u2) :
    u.PC = t.PC := by
  have hpc : u2.PC = s2.PC := by
    apply BitVec.eq_of_toNat_eq
    apply Int.ofNat_inj.mp
    rw [x.pc, y.pc, nextPC_setMem]
  rw [y.retired, x.retired, retire_PC, retire_PC, hpc, y.wordLength, x.wordLength, State.wordLength_setMem]

theorem ExecutedStep.ir_setMem (x : ExecutedStep s t e i s1 s2) (y : ExecutedStep (s.setMem m) u e' i u1 u2) :
    u.IR = t.IR := by
  rw [y.IR, x.IR, Option.some.inj (y.entry.symm.trans x.entry)]

/-- The fetched states agree on the word length, the general registers and the flags. -/
theorem ExecutedStep.fetched_setMem (x : ExecutedStep s t e i s1 s2) (y : ExecutedStep (s.setMem m) u e' i u1 u2) :
    u1.wordLength = s1.wordLength ∧ (∀ g, u1.gpr g = s1.gpr g) ∧ sameFlags s1 u1 := by
  obtain ⟨hSF, hOF⟩ := fetch_flags x.fetched
  obtain ⟨hSF', hOF'⟩ := fetch_flags y.fetched
  refine ⟨?_, fun g => ?_, ?_, ?_⟩
  · rw [fetch_wordLength y.fetched, fetch_wordLength x.fetched, State.wordLength_setMem]
  · rw [fetch_gpr y.fetched, fetch_gpr x.fetched, State.gpr_setMem]
  · rw [hSF', hSF, State.SF_setMem]
  · rw [hOF', hOF, State.OF_setMem]

theorem ExecutedStep.flags_setMem (x : ExecutedStep s t e i s1 s2) (y : ExecutedStep (s.setMem m) u e' i u1 u2) :
    sameFlags t u := by
  obtain ⟨hwidth, hgpr, hflags⟩ := x.fetched_setMem y
  have hexec : sameFlags s2 u2 := exec_flags_congr x.executed y.executed hwidth hgpr hflags
  rw [y.retired, x.retired]
  exact hexec

theorem ExecutedStep.gpr_setMem (x : ExecutedStep s t e i s1 s2) (y : ExecutedStep (s.setMem m) u e' i u1 u2)
    (hload : ∀ r a, i ≠ .load r a) (g : Reg) : u.gpr g = t.gpr g := by
  obtain ⟨hwidth, hgpr, -⟩ := x.fetched_setMem y
  rw [y.retired, x.retired, retire_gpr, retire_gpr, exec_gpr_congr x.executed y.executed hwidth hgpr hload,
    y.wordLength, x.wordLength, State.wordLength_setMem]

theorem ExecutedStep.halted_setMem (x : ExecutedStep s t e i s1 s2) (y : ExecutedStep (s.setMem m) u e' i u1 u2) :
    u.halted = t.halted := by
  rw [Bool.eq_iff_iff, y.halted_iff, x.halted_iff]

end

/-- Settles O36: the same instruction runs in both memories, and only `LOAD` reads them. -/
theorem memoryContentsNeverSteerExecution : Obligations.MemoryContentsNeverSteerExecution := by
  intro s t m hstep
  rcases step_cases hstep with ⟨hhalted, rfl⟩ | ⟨hrunning, hentry, rfl⟩ | ⟨e, i, s1, s2, x⟩
  · have hother := step_of_halted (s := t.setMem m) hhalted
    exact ⟨_, hother, rfl, rfl, rfl, rfl, rfl, rfl, rfl, rfl, fun _ => t.gpr_setMem m⟩
  · have hother := step_of_noEntry (s := s.setMem m) hrunning hentry
    refine ⟨_, hother, rfl, rfl, rfl, rfl, rfl, rfl, rfl, rfl, fun _ g => ?_⟩
    exact ((s.setMem m).gpr_halt g).trans ((s.gpr_setMem m g).trans (s.gpr_halt g).symm)
  · have hruns := runs_setMem m x.runs
    obtain ⟨u, hother⟩ := step_completes_of_runs hruns
    obtain ⟨e', u1, u2, y⟩ := executed_of_runs hruns hother
    obtain ⟨hSF, hOF⟩ := x.flags_setMem y
    obtain ⟨hprog, -⟩ := x.keeps_config
    obtain ⟨hprog', -⟩ := y.keeps_config
    have hcycle : u.cycle = t.cycle := by rw [y.cycle, x.cycle, State.cycle_setMem]
    have hphase : u.phase = t.phase := by rw [y.phase, x.phase]
    have hsameProg : u.prog = t.prog := by rw [hprog', hprog, State.prog_setMem]
    have hgpr (hload : ∀ r a, ¬runs s (.load r a)) : ∀ g, u.gpr g = t.gpr g :=
      x.gpr_setMem y fun r a hi => hload r a (hi ▸ x.runs)
    exact ⟨u, hother, x.pc_setMem y, x.ir_setMem y, hSF, hOF, x.halted_setMem y, hcycle, hphase, hsameProg, hgpr⟩

/-! ## The display base (10_state.md R32) -/

/-- The state with another display base. -/
def State.withBase (b : DisplayBase) (s : State) : State := { s with displayBase := b }

/-- The outcome with `f` applied to its next state. -/
def mapNext (f : State → State) : Host.Outcome State Fault Refusal → Host.Outcome State Fault Refusal
  | .next s => .next (f s)
  | .fault r => .fault r
  | .refused r => .refused r

section
variable (b : DisplayBase) (s : State)

@[simp] theorem withBase_wordLength : (s.withBase b).wordLength = s.wordLength := rfl
@[simp] theorem withBase_PC : (s.withBase b).PC = s.PC := rfl
@[simp] theorem withBase_mem : (s.withBase b).mem = s.mem := rfl
@[simp] theorem withBase_gpr (g : Reg) : (s.withBase b).gpr g = s.gpr g := by cases g <;> rfl
@[simp] theorem withBase_setReg (r : RegName) (n : Int) :
    (s.withBase b).setReg r n = (s.setReg r n).withBase b := by cases r <;> rfl
@[simp] theorem withBase_setMem (m : Memory) : (s.withBase b).setMem m = (s.setMem m).withBase b := rfl
@[simp] theorem withBase_setIR (tag : BitVec 4) : (s.withBase b).setIR tag = (s.setIR tag).withBase b := rfl
@[simp] theorem withBase_recordFree (p : Phase) : (s.withBase b).recordFree p = (s.recordFree p).withBase b := rfl
@[simp] theorem withBase_recordAccess (p : Phase) (a : Nat) (v : Word) :
    (s.withBase b).recordAccess p a v = (s.recordAccess p a v).withBase b := rfl
@[simp] theorem withBase_updateFlags (v : Word) (f : Bool) :
    (s.withBase b).updateFlags v f = (s.updateFlags v f).withBase b := rfl
@[simp] theorem withBase_advance : (s.withBase b).advance = s.advance.withBase b := rfl
@[simp] theorem withBase_halt : (s.withBase b).halt = s.halt.withBase b := rfl
@[simp] theorem withBase_retire : retire (s.withBase b) = (retire s).withBase b := rfl
@[simp] theorem withBase_writeResult (r : Reg) (v : Word) :
    (s.withBase b).writeResult r v = (s.writeResult r v).withBase b := by simp [State.writeResult]
@[simp] theorem withBase_storeExecute (r : Reg) (a : Int) :
    storeExecute r a (s.withBase b) = (storeExecute r a s).withBase b := by simp [storeExecute]
@[simp] theorem withBase_DR : (s.withBase b).DR = s.DR := rfl

/-- No meaning reads the display base. -/
theorem exec_withBase (i : Instr) : exec i (s.withBase b) = mapNext (State.withBase b) (exec i s) := by
  cases i with
  | ldi r imm => simp [exec, execLdi, immediateValue, mapNext]
  | add d src => simp [exec, execAdd, mapNext]
  | store r a =>
    rcases address_cases a with ⟨h0, h1⟩ | ha
    · simp [exec, execStore_of_inRange r _ h0 h1, mapNext]
    · simp [exec, execStore_of_outOfRange r _ ha, mapNext]
  | load r a =>
    rcases address_cases a with ⟨h0, h1⟩ | ha
    · simp [exec, execLoad_of_inRange r _ h0 h1, mapNext]
    · simp [exec, execLoad_of_outOfRange r _ ha, mapNext]
  | jmp a => simp [exec, execJmp, mapNext]
  | jz r a =>
    simp only [exec, execJz, mapNext, withBase_gpr]
    split <;> simp
  | hlt => simp [exec, execHlt, mapNext]

end

theorem retireOutcome_mapNext (b : DisplayBase) (o : Host.Outcome State Fault Refusal) :
    retireOutcome (mapNext (State.withBase b) o) = mapNext (State.withBase b) (retireOutcome o) := by
  cases o <;> rfl

/-! ## A step with another display base -/

theorem fetch_withBase (b : DisplayBase) (e : Entry) (s : State) :
    fetch e (s.withBase b) = (fetch e s).map (State.withBase b) := by
  rcases Nat.lt_or_ge s.PC.toNat memorySize with hlt | hge
  · rw [fetch_of_inRange e hlt, fetch_of_inRange (s := s.withBase b) e hlt]
    simp [Except.map]
  · rw [fetch_of_outOfRange e hge, fetch_of_outOfRange (s := s.withBase b) e hge]
    rfl

/-- A step carries the display base along unread. -/
theorem step_withBase (b : DisplayBase) (s : State) : step (s.withBase b) = mapNext (State.withBase b) (step s) := by
  cases hhalted : s.halted with
  | true => rw [step_of_halted (s := s.withBase b) hhalted, step_of_halted hhalted, mapNext]
  | false =>
    cases hentry : s.prog[s.PC.toNat]? with
    | none => rw [step_of_noEntry (s := s.withBase b) hhalted hentry, step_of_noEntry hhalted hentry]; rfl
    | some e =>
      cases hdec : decodeValid s.wordLength e with
      | error r =>
        rw [step_of_undecoded (s := s.withBase b) hhalted hentry hdec, step_of_undecoded hhalted hentry hdec, mapNext]
      | ok i =>
        have hother := fetch_withBase b e s
        cases hfetch : fetch e s with
        | error f =>
          rw [hfetch] at hother
          rw [step_of_unfetched (s := s.withBase b) hhalted hentry hdec hother,
            step_of_unfetched hhalted hentry hdec hfetch, mapNext]
        | ok s1 =>
          rw [hfetch] at hother
          rw [step_of_fetched (s := s.withBase b) hhalted hentry hdec hother,
            step_of_fetched hhalted hentry hdec hfetch, exec_withBase, retireOutcome_mapNext]

/-! ## The phase (40_step_cycle.md R111) -/

/-- The state with another phase. -/
def State.withPhase (p : Phase) (s : State) : State := { s with phase := p }

/-- The fetch overwrites the phase. -/
theorem fetch_withPhase (p : Phase) (e : Entry) (s : State) : fetch e (s.withPhase p) = fetch e s := rfl

/-- A running machine steps alike from every phase: the fetch and the fall-through overwrite it. -/
theorem step_withPhase (p : Phase) {s : State} (hrunning : s.halted = false) : step (s.withPhase p) = step s := by
  cases hentry : s.prog[s.PC.toNat]? with
  | none => rw [step_of_noEntry (s := s.withPhase p) hrunning hentry, step_of_noEntry hrunning hentry]; rfl
  | some e =>
    cases hdec : decodeValid s.wordLength e with
    | error r =>
      rw [step_of_undecoded (s := s.withPhase p) hrunning hentry hdec, step_of_undecoded hrunning hentry hdec]
    | ok i =>
      have hother := fetch_withPhase p e s
      cases hfetch : fetch e s with
      | error f =>
        rw [step_of_unfetched (s := s.withPhase p) hrunning hentry hdec (hother.trans hfetch),
          step_of_unfetched hrunning hentry hdec hfetch]
      | ok s1 =>
        rw [step_of_fetched (s := s.withPhase p) hrunning hentry hdec (hother.trans hfetch),
          step_of_fetched hrunning hentry hdec hfetch]

/-! ## Host commands on a state with other labels -/

/-- The state with another phase and another display base. -/
def State.relabel (p : Phase) (b : DisplayBase) (s : State) : State := { s with phase := p, displayBase := b }

/-- The step of a relabelled state stops alike, or answers a relabelled state. -/
theorem step_relabel_cases (p : Phase) (b : DisplayBase) (s : State) :
    (∃ t q, step s = .next t ∧ step (s.relabel p b) = .next (t.relabel q b)) ∨
    (∃ f, step s = .fault f ∧ step (s.relabel p b) = .fault f) ∨
    (∃ r, step s = .refused r ∧ step (s.relabel p b) = .refused r) := by
  cases hhalted : s.halted with
  | true => exact .inl ⟨s, p, step_of_halted hhalted, step_of_halted (s := s.relabel p b) hhalted⟩
  | false =>
    have hother : step (s.relabel p b) = mapNext (State.withBase b) (step s) := by
      rw [← step_withPhase p hhalted]
      exact step_withBase b (s.withPhase p)
    rw [hother]
    cases step s with
    | next t => exact .inl ⟨t, t.phase, rfl, rfl⟩
    | fault f => exact .inr (.inl ⟨f, rfl, rfl⟩)
    | refused r => exact .inr (.inr ⟨r, rfl, rfl⟩)

/-- The second reply leaves the state of the first but for phase and display base, and answers the same error if any. -/
def Reply.Alike (r r' : Reply) : Prop :=
  (∃ q d, r'.state = r.state.relabel q d) ∧ ∀ e, r'.response = .error e ↔ r.response = .error e

theorem Reply.alike_of_response_eq {r r' : Reply} {q : Phase} {d : DisplayBase}
    (hstate : r'.state = r.state.relabel q d) (hresponse : r'.response = r.response) : r.Alike r' :=
  ⟨⟨q, d, hstate⟩, fun e => by rw [hresponse]⟩

section
variable (p : Phase) (b : DisplayBase) (s : State)

theorem Reply.alike_failed (e : HostError) : (Reply.failed s e).Alike (.failed (s.relabel p b) e) :=
  Reply.alike_of_response_eq (q := p) (d := b) rfl rfl

theorem Reply.alike_changed (r : Response) : (Reply.changed s r).Alike (.changed (s.relabel p b) r) :=
  Reply.alike_of_response_eq (q := p) (d := b) rfl rfl

theorem loadInstrs_alike (is : List Instr) : (loadInstrs is s).Alike (loadInstrs is (s.relabel p b)) := by
  rcases Nat.lt_or_ge 64 is.length with hlarge | hfits
  · rw [loadInstrs_of_tooLarge hlarge, loadInstrs_of_tooLarge hlarge]
    exact Reply.alike_failed p b s _
  · cases hv : validate is s.wordLength with
    | error e =>
      rw [loadInstrs_of_invalid hfits hv, loadInstrs_of_invalid (s := s.relabel p b) hfits hv]
      exact Reply.alike_failed p b s e
    | ok _ =>
      rw [loadInstrs_of_valid hfits hv, loadInstrs_of_valid (s := s.relabel p b) hfits hv]
      exact Reply.alike_changed .ready b (s.commit is) _

theorem loadProgram_alike (text : String) : (loadProgram text s).Alike (loadProgram text (s.relabel p b)) := by
  cases hparse : parse text with
  | error e =>
    rw [loadProgram_of_parse_error s hparse, loadProgram_of_parse_error _ hparse]
    exact Reply.alike_failed p b s _
  | ok is =>
    rw [loadProgram_of_parse_ok s hparse, loadProgram_of_parse_ok _ hparse]
    exact loadInstrs_alike p b s is

theorem stepCommand_alike : (stepCommand s).Alike (stepCommand (s.relabel p b)) := by
  rcases step_relabel_cases p b s with ⟨t, q, h, h'⟩ | ⟨f, h, h'⟩ | ⟨r, h, h'⟩
  · obtain ⟨hstate, report, hresponse⟩ := stepCommand_of_next h
    obtain ⟨hstate', report', hresponse'⟩ := stepCommand_of_next h'
    refine ⟨⟨q, b, by rw [hstate', hstate]⟩, fun e => ?_⟩
    rw [hresponse', hresponse]
    exact iff_of_false nofun nofun
  · rw [stepCommand_of_fault h, stepCommand_of_fault h']
    exact Reply.alike_failed p b s _
  · rw [stepCommand_of_refused h, stepCommand_of_refused h']
    exact Reply.alike_failed p b s _

theorem setWordLength_alike (bits : Int) : (setWordLength bits s).Alike (setWordLength bits (s.relabel p b)) := by
  cases hw : wordLengthOf bits with
  | none =>
    rw [setWordLength_of_unsupported s hw, setWordLength_of_unsupported _ hw]
    exact Reply.alike_failed p b s _
  | some w =>
    obtain rfl : (w.bits : Int) = bits := bits_of_wordLengthOf hw
    cases hv : validateStore w 0 s.prog with
    | error e =>
      rw [setWordLength_of_invalid hv, setWordLength_of_invalid (s := s.relabel p b) hv]
      exact Reply.alike_failed p b s e
    | ok _ =>
      rw [setWordLength_of_valid hv, setWordLength_of_valid (s := s.relabel p b) hv]
      exact Reply.alike_changed p b (s.commitWidth w) _

theorem setDisplayBase_alike (name : String) :
    (setDisplayBase name s).Alike (setDisplayBase name (s.relabel p b)) := by
  cases hd : displayBaseOf name with
  | none =>
    rw [setDisplayBase_of_unsupported s hd, setDisplayBase_of_unsupported _ hd]
    exact Reply.alike_failed p b s _
  | some d =>
    rw [setDisplayBase_of_supported s hd, setDisplayBase_of_supported _ hd]
    exact Reply.alike_changed p d { s with displayBase := d } _

end

theorem runLoop_alike_of_halted (maxSteps fuel : Nat) (p : Phase) (b : DisplayBase) {s : State}
    (h : s.halted = true) : (runLoop maxSteps fuel s).Alike (runLoop maxSteps fuel (s.relabel p b)) := by
  rw [runLoop_of_halted h, runLoop_of_halted (s := s.relabel p b) h]
  exact ⟨⟨p, b, rfl⟩, fun e => iff_of_false nofun nofun⟩

theorem runLoop_alike (maxSteps fuel : Nat) (p : Phase) (b : DisplayBase) (s : State) :
    (runLoop maxSteps fuel s).Alike (runLoop maxSteps fuel (s.relabel p b)) := by
  induction fuel generalizing s p b with
  | zero =>
    cases hhalted : s.halted with
    | true => exact runLoop_alike_of_halted maxSteps 0 p b hhalted
    | false =>
      rw [runLoop_zero_of_running hhalted, runLoop_zero_of_running (s := s.relabel p b) hhalted]
      exact Reply.alike_failed p b s _
  | succ fuel ih =>
    cases hhalted : s.halted with
    | true => exact runLoop_alike_of_halted maxSteps (fuel + 1) p b hhalted
    | false =>
      rcases step_relabel_cases p b s with ⟨t, q, h, h'⟩ | ⟨f, h, h'⟩ | ⟨r, h, h'⟩
      · obtain ⟨hstate, hresponse⟩ := runLoop_of_next (maxSteps := maxSteps) (fuel := fuel) hhalted h
        obtain ⟨hstate', hresponse'⟩ :=
          runLoop_of_next (s := s.relabel p b) (maxSteps := maxSteps) (fuel := fuel) hhalted h'
        have hrest := ih q b t
        unfold Reply.Alike at hrest ⊢
        rwa [hstate, hresponse, hstate', hresponse']
      · rw [runLoop_of_fault hhalted h, runLoop_of_fault (s := s.relabel p b) hhalted h']
        exact Reply.alike_failed p b s _
      · rw [runLoop_of_refused hhalted h, runLoop_of_refused (s := s.relabel p b) hhalted h']
        exact Reply.alike_failed p b s _

theorem command_alike (c : Command) (p : Phase) (b : DisplayBase) (s : State) :
    (command c s).Alike (command c (s.relabel p b)) := by
  cases c with
  | loadProgram text => exact loadProgram_alike p b s text
  | step => exact stepCommand_alike p b s
  | reset => exact Reply.alike_changed .idle b s.hostReset .done
  | setWordLength bits => exact setWordLength_alike p b s bits
  | setDisplayBase name => exact setDisplayBase_alike p b s name
  | runUntilHalt n => exact runLoop_alike n n p b s

/-- Settles O37: a step commutes with a change of the display base and ignores the phase, and so does every command. -/
theorem phaseAndDisplayBaseGateNothing : Obligations.PhaseAndDisplayBaseGateNothing := by
  refine ⟨fun s p hrunning => step_withPhase p hrunning, fun s t b hstep => ?_, fun c s p b => command_alike c p b s⟩
  have hother := step_withBase b s
  rw [hstep] at hother
  exact hother

end Sys2Proof.Machine
end
